-- ==== Sys2Proof/Word.lean ====
section
/-! DEFINITION. The word types of the engine (00_scope.md rule R6). -/

namespace Sys2Proof

/-- A tape cell, a program byte or an I/O byte: `CELL_W` = `INSN_W` = 8 bits (R6). -/
abbrev Byte := BitVec 8

/-- A tape address, the width of AP: `ADDR_W` = 16 bits (R6). -/
abbrev Addr := BitVec 16

/-- An index into the program store, the width of IP and LEN: `IP_W` = 17 bits (R6, R7). -/
abbrev Index := BitVec 17

end Sys2Proof
end

