-- ==== Sys2Proof/Config.lean ====
section
/-! DEFINITION. The parameters of the hardware (00_scope.md rule R6).
There is no free value: the spec leaves no result of an instruction undefined.
`STEP_LATENCY` is unmodelled (70_reset_and_hazards.md rule R138). -/

namespace Sys2Proof

/-- `TAPE_CAP`: the number of tape cells (R6). -/
abbrev Config.tapeCap : Nat := 65536

/-- `PROG_CAP`: the capacity of the program store in bytes (R6). -/
abbrev Config.progCap : Nat := 65536

end Sys2Proof
end

