-- ==== Sys2Proof/Syntax.lean ====
section
/-! DEFINITION. The instructions: one constructor per row of spec/opcode_table.json. -/

namespace Sys2Proof

/-- The nine rows of the opcode table (30_encoding.md rules R66 and R75).
No instruction has an encoded operand (R69).
`nop` keeps the commentary byte it was decoded from, so that encoding loses nothing (log entry 16). -/
inductive Instr where
  /-- `+`: increment the current cell (R89). -/
  | inc
  /-- `-`: decrement the current cell (R90). -/
  | dec
  /-- `>`: move the address pointer right (R91). -/
  | right
  /-- `<`: move the address pointer left (R92). -/
  | left
  /-- `,`: output the current cell (R93). -/
  | out
  /-- `.`: input a byte into the current cell (R94). -/
  | inp
  /-- `[`: loop begin (R102). -/
  | jz
  /-- `]`: loop end (R103). -/
  | jnz
  /-- Any other byte: commentary (R111). -/
  | nop (b : Byte)
  deriving DecidableEq, Repr

end Sys2Proof
end

