-- ==== Sys2Proof/WellFormed.lean ====
section
/-! DEFINITION. Which instruction terms stand for an encoding of the hardware. -/

namespace Sys2Proof

/-- The eight instruction bytes of 30_encoding.md rule R66, in the order of its table. -/
def instructionBytes : List Byte := [0x2B, 0x2D, 0x3E, 0x3C, 0x2C, 0x2E, 0x5B, 0x5D]

/-- A commentary instruction carries one of the 248 bytes that are not instruction bytes (R111).
Every other constructor has exactly one encoding. -/
def Instr.wf : Instr → Bool
  | .inc | .dec | .right | .left | .out | .inp | .jz | .jnz => true
  | .nop b => !instructionBytes.contains b

end Sys2Proof
end

