-- ==== Sys2Proof/Decode.lean ====
section
/-! DEFINITION. The decoder (30_encoding.md rule R67) and the encoder (rule R66).
No byte is rejected: "Decode is total on all 256 byte values. It never fails and never traps." -/

namespace Sys2Proof

/-- Rule R67: compare the whole byte with the eight values of rule R66; every other byte is commentary.
`,` is OUTPUT and `.` is INPUT, the literal mapping of rule R68 (log entry 9). -/
def decode (b : Byte) : Instr :=
  if b = 0x2B then .inc
  else if b = 0x2D then .dec
  else if b = 0x3E then .right
  else if b = 0x3C then .left
  else if b = 0x2C then .out
  else if b = 0x2E then .inp
  else if b = 0x5B then .jz
  else if b = 0x5D then .jnz
  else .nop b

/-- The byte of an instruction, from the table of rule R66. -/
def encode : Instr → Byte
  | .inc => 0x2B
  | .dec => 0x2D
  | .right => 0x3E
  | .left => 0x3C
  | .out => 0x2C
  | .inp => 0x2E
  | .jz => 0x5B
  | .jnz => 0x5D
  | .nop b => b

/-- The instruction the decoder reads from a table word of `nbits` bits; the bits above `nbits` are 0.
An instruction is one byte (R65), so a word that needs more than 8 bits is no instruction (log entry 15). -/
def decodeTableWord (nbits w : Nat) : Option Instr :=
  if w % 2 ^ nbits < 256 then some (decode (BitVec.ofNat 8 (w % 2 ^ nbits))) else none

end Sys2Proof
end

