-- ==== Sys2Proof/Machine/State.lean ====
section
/-! DEFINITION. The state of the engine as plain data, the reasons a step can stop, and the reset state
(10_state.md rules R15 and R35). -/

namespace Sys2Proof.Machine

/-- A memory as (address, byte) pairs; `Memory.wf` in Machine/Memory.lean says its one canonical form. -/
abbrev Memory := List Host.Cell

/-- CAUSE, the 2-bit fault cause (R22). Its code 3 is reserved and never written, so no constructor has it
(log entry 5); `Cause.code` in Machine/Status.lean gives the codes. -/
inductive Cause where
  /-- Code 0. -/
  | none
  /-- Code 1, set by a LOAD of more than 65536 bytes (R113). -/
  | capacityExceeded
  /-- Code 2, set by a bracket scan that leaves the program (R114). -/
  | unbalancedBracket
  deriving DecidableEq, Repr

/-- The architectural state (R15), field by field, and the host's two byte sequences (R32). -/
structure State where
  /-- TAPE, 65536 cells of 8 bits; an unlisted cell `i` holds `i mod 64` (R16). -/
  tape : Memory
  /-- AP, the address pointer (R17). -/
  ap : Addr
  /-- IP, the instruction pointer (R18). -/
  ip : Index
  /-- LEN, the program length (R19). -/
  len : Index
  /-- PROG, 65536 bytes; an unlisted byte has no value (R20, log entry 3). -/
  prog : Memory
  /-- LOADED (R21). -/
  loaded : Bool
  /-- CAUSE (R22). -/
  cause : Cause
  /-- AWAIT (R23). -/
  await : Bool
  /-- The model's own field: the bytes the host has made available and the engine has not consumed,
  oldest first (R32, R96, log entry 1). -/
  input : List Byte
  /-- The model's own field: the bytes the output channel has accepted, oldest first
  (R32, R95, log entry 2). -/
  output : List Byte
  deriving DecidableEq, Repr

/-- The reasons a step stops. No state that the spec's rules reach raises one of them. -/
inductive Fault where
  /-- Raised by a fetch with IP > LEN, which "need not be defined" (R50, U1). Safe: the model stops. -/
  | ipPastLength
  /-- Raised by a fetch or a bracket scan that reads a PROG byte no LOAD wrote (R20, U2).
  Safe: the model stops. -/
  | progUnspecified
  deriving DecidableEq, Repr

/-- The reasons an operation is given no meaning. -/
inductive Refusal where
  /-- Raised by an arm of `exec` that has no meaning yet. Safe: the model stops. No arm raises it now. -/
  | notModelled (mnemonic : String)
  /-- Raised by the host operation LOAD while LOADED = 1: "a model refuses it by name" (R47, U5).
  Safe: the model stops. -/
  | loadWhileLoaded
  deriving DecidableEq, Repr

/-- The reset (creation) state (R35). TAPE lists nothing, so cell `i` reads `i mod 64`;
PROG lists nothing, so no byte of it has a value. The two sequences of the host start empty
(log entries 1 and 2). -/
def State.reset : State where
  tape := []
  ap := 0
  ip := 0
  len := 0
  prog := []
  loaded := false
  cause := .none
  await := false
  input := []
  output := []

end Sys2Proof.Machine
end

