-- ==== Sys2Proof/Machine/Memory.lean ====
section
/-! DEFINITION. Memories as lists of (address, byte) pairs in one canonical form: the operations, the form,
and what an unlisted address of the tape and of the program store reads as. -/

namespace Sys2Proof.Machine

/-- The byte listed at an address, if one is listed. -/
def Memory.lookup : Memory → Nat → Option Byte
  | [], _ => none
  | c :: m, a => if c.1 = a then some c.2 else Memory.lookup m a

/-- List a byte at an address, in its place among the rising addresses. -/
def Memory.put : Memory → Nat → Byte → Memory
  | [], a, v => [(a, v)]
  | c :: m, a, v =>
    if a < c.1 then (a, v) :: c :: m
    else if a = c.1 then (a, v) :: m
    else c :: Memory.put m a v

/-- List nothing at an address. -/
def Memory.erase : Memory → Nat → Memory
  | [], _ => []
  | c :: m, a => if c.1 = a then Memory.erase m a else c :: Memory.erase m a

/-- Write a byte, keeping the canonical form: writing what an unlisted address reads as lists nothing. -/
def Memory.write (unlisted : Nat → Option Byte) (m : Memory) (a : Nat) (v : Byte) : Memory :=
  if unlisted a = some v then Memory.erase m a else Memory.put m a v

/-- The canonical form: strictly rising addresses, all below `cap`, and no entry equal to what the address
reads as when it is not listed. -/
abbrev Memory.wf (unlisted : Nat → Option Byte) (cap : Nat) (m : Memory) : Prop :=
  m.Pairwise (fun c d => c.1 < d.1) ∧ ∀ c ∈ m, c.1 < cap ∧ unlisted c.1 ≠ some c.2

/-- `TAPE_INIT(i) = i mod 64`, the reset value of cell `i` (R6, R16, log entry 7). -/
def tapeInit (i : Nat) : Byte := BitVec.ofNat 8 (i % 64)

/-- An unlisted tape cell holds its reset value (R16). -/
def tapeUnlisted (i : Nat) : Option Byte := some (tapeInit i)

/-- An unlisted program byte has no value: the spec leaves it unspecified (R20, log entry 3). -/
def progUnlisted (_ : Nat) : Option Byte := none

/-- The cell that a nominal tape address reaches: the floor modulo of rules R8 and R37. -/
def cellIndex (a : Int) : Nat := (a % (Config.tapeCap : Int)).toNat

/-- The program store that holds the given bytes from an index on (R45). -/
def programCells : Nat → List Byte → Memory
  | _, [] => []
  | i, b :: bs => (i, b) :: programCells (i + 1) bs

end Sys2Proof.Machine
end

