-- ==== Sys2Proof/Machine/Ops.lean ====
section
/-! DEFINITION. The named operations over registers, memories, the I/O channels and the fatal conditions
(00_scope.md rule R9), and the fetch (20_memory.md rule R50). -/

namespace Sys2Proof.Machine

/-! ### Writes of one register -/

/-- Replace TAPE. -/
def State.setTape (s : State) (m : Memory) : State := { s with tape := m }

/-- `AP <- v` (R17). -/
def State.setAp (s : State) (v : Addr) : State := { s with ap := v }

/-- `IP <- v` (R18). -/
def State.setIp (s : State) (v : Index) : State := { s with ip := v }

/-- `CAUSE <- v` (R22). -/
def State.setCause (s : State) (v : Cause) : State := { s with cause := v }

/-- `AWAIT <- v` (R23). -/
def State.setAwait (s : State) (v : Bool) : State := { s with await := v }

/-- Replace the input source (R32). -/
def State.setInput (s : State) (v : List Byte) : State := { s with input := v }

/-- Replace the output record (R32). -/
def State.setOutput (s : State) (v : List Byte) : State := { s with output := v }

/-- The sequential advance `IP <- IP + 1` (R81). -/
def advanceIp (s : State) : State := s.setIp (s.ip + 1)

/-! ### The tape memory controller -/

/-- `MemRead(a, 1)` (R38): the cell at `a mod 65536`. -/
def memRead (s : State) (a : Int) : Byte :=
  (Memory.lookup s.tape (cellIndex a)).getD (tapeInit (cellIndex a))

/-- `MemWrite(a, 1, v)` (R39): write the cell at `a mod 65536` and no other. -/
def memWrite (s : State) (a : Int) (v : Byte) : State :=
  s.setTape (Memory.write tapeUnlisted s.tape (cellIndex a) v)

/-- Controller operation `increment(a)` (R40): the cell plus 1 modulo 256. -/
def increment (s : State) (a : Int) : State := memWrite s a (memRead s a + 1)

/-- Controller operation `decrement(a)` (R41): the cell plus 255 modulo 256. -/
def decrement (s : State) (a : Int) : State := memWrite s a (memRead s a + 255)

/-! ### The program store -/

/-- `PROG[i]` (R9), where a LOAD has written it. -/
def progRead (s : State) (i : Nat) : Option Byte := Memory.lookup s.prog i

/-- What the fetch `at(ip)` answers (R50). -/
inductive Fetch where
  /-- The sentinel `Halted`, when IP = LEN. -/
  | halted
  /-- The instruction byte, when IP < LEN. -/
  | byte (b : Byte)
  /-- IP > LEN, which the spec does not define (U1). -/
  | pastLength
  /-- IP < LEN and no LOAD has written the byte (U2). -/
  | unspecified
  deriving DecidableEq, Repr

/-- Fetch at IP (R50). -/
def fetch (s : State) : Fetch :=
  if s.ip = s.len then .halted
  else if s.ip.toNat < s.len.toNat then
    match progRead s s.ip.toNat with
    | some b => .byte b
    | none => .unspecified
  else .pastLength

/-- The host's stand-in for a LOAD (log entry 11): the byte is placed where the next step fetches, LEN reaches
past it, LOADED is set and no fatal condition stands. IP is kept where it is an index of the store. -/
def placeFetchByte (s : State) (b : Byte) : State :=
  let ip : Index := if s.ip.toNat < Config.progCap then s.ip else 0
  { s with
    ip := ip
    len := if ip.toNat < s.len.toNat then s.len else ip + 1
    prog := Memory.write progUnlisted s.prog ip.toNat b
    loaded := true
    cause := .none }

/-! ### The I/O gateway -/

/-- `Output(v)` (R95): the byte joins the end of the output record. The sink always accepts (log entry 2). -/
def emitOutput (s : State) (v : Byte) : State := s.setOutput (s.output ++ [v])

/-- `Input()` (R96): the oldest available byte and the state without it, or `none` when no byte is available. -/
def takeInput (s : State) : Option (Byte × State) :=
  match s.input with
  | [] => none
  | b :: rest => some (b, s.setInput rest)

/-! ### Fatal conditions -/

/-- Taking a fatal condition, the engine's only exception entry (60_exceptions.md rules R114 and R118):
CAUSE is written and nothing else. There is no saved register, no vector and no mode, and no return (R119):
only RESET clears CAUSE. CapacityExceeded writes further registers in LOAD (R113). -/
def raiseFatal (s : State) (c : Cause) : State := s.setCause c

end Sys2Proof.Machine
end

