-- ==== Sys2Proof/Machine/Commentary.lean ====
section
/-! DEFINITION. Commentary bytes (44_nop.md rule R111). -/

namespace Sys2Proof.Machine

/-- Any other byte (R111): IP + 1 and nothing else, whichever byte it is. -/
def execNop (_b : Byte) (s : State) : Host.Outcome State Fault Refusal := .next (advanceIp s)

end Sys2Proof.Machine
end

