-- ==== Sys2Proof/Machine/Operands.lean ====
section
/-! DEFINITION. The one operand form: the current cell, addressed through AP (30_encoding.md rule R69,
20_memory.md rule R61). -/

namespace Sys2Proof.Machine

/-- The address of the current cell: AP (R13). -/
def currentAddr (s : State) : Int := (s.ap.toNat : Int)

/-- The value of the current cell `TAPE[AP]` (R13). -/
def currentCell (s : State) : Byte := memRead s (currentAddr s)

/-- Store into the current cell. -/
def storeCurrentCell (s : State) (v : Byte) : State := memWrite s (currentAddr s) v

end Sys2Proof.Machine
end

