-- ==== Sys2Proof/Machine/Flags.lean ====
section
/-! DEFINITION. The engine has no flags (10_state.md rule R28). The one condition an instruction tests is
the guard cell against zero. -/

namespace Sys2Proof.Machine

/-- The guard of `[` and `]`: the current cell is zero at the moment the instruction executes
(10_state.md rule R28, 70_reset_and_hazards.md rule R137). -/
def guardIsZero (s : State) : Bool := currentCell s == 0

end Sys2Proof.Machine
end

