-- ==== Sys2Proof/Machine/Io.lean ====
section
/-! DEFINITION. The I/O instructions (42_io.md rules R93 and R94). -/

namespace Sys2Proof.Machine

/-- `,` (R93): output the current cell, then IP + 1. -/
def execOut (s : State) : Host.Outcome State Fault Refusal :=
  .next (advanceIp (emitOutput s (currentCell s)))

/-- `.` (R94): with no byte available only AWAIT is set; otherwise the byte goes into the current cell,
AWAIT is cleared and IP + 1. -/
def execIn (s : State) : Host.Outcome State Fault Refusal :=
  match takeInput s with
  | none => .next (s.setAwait true)
  | some (r, s') => .next (advanceIp ((storeCurrentCell s' r).setAwait false))

end Sys2Proof.Machine
end

