-- ==== Sys2Proof/Machine/Scanner.lean ====
section
/-! DEFINITION. The bracket-matching scanner (43_loop.md rules R104 and R105), and the same scans with the
register widths of rule R108. -/

namespace Sys2Proof.Machine

/-- The byte of `[` (R66). -/
def openByte : Byte := 0x5B

/-- The byte of `]` (R66). -/
def closeByte : Byte := 0x5D

/-- What a scan answers. -/
inductive Scan where
  /-- A match: the new IP, one past it. -/
  | found (ip : Index)
  /-- The scan left the bounds of the program: UnbalancedBracket. -/
  | unbalanced
  /-- The scan read a byte that no LOAD wrote (U2); only a state that no run reaches does so. -/
  | unspecified
  deriving DecidableEq, Repr

/-- The loop of ScanForward (R104) at position `p`, with `left` positions of `[p, LEN)` still to read:
the bounds check `p >= LEN` is `left = 0`, and it comes before the read (R52). -/
def scanForwardFrom (prog : Memory) : (left p depth : Nat) → Scan
  | 0, _, _ => .unbalanced
  | left + 1, p, depth =>
    match Memory.lookup prog p with
    | none => .unspecified
    | some b =>
      if b = openByte then scanForwardFrom prog left (p + 1) (depth + 1)
      else if b = closeByte then
        if depth = 0 then .found (BitVec.ofNat 17 (p + 1))
        else scanForwardFrom prog left (p + 1) (depth - 1)
      else scanForwardFrom prog left (p + 1) depth

/-- ScanForward(IP) (R104): from `IP + 1`, counter 0. -/
def scanForward (s : State) : Scan :=
  scanForwardFrom s.prog (s.len.toNat - (s.ip.toNat + 1)) (s.ip.toNat + 1) 0

/-- The loop of ScanBackward (R105) with the positions below its argument still to read: the next position
is `p`, and the bounds check `p < 0` is the argument 0. -/
def scanBackwardFrom (prog : Memory) : (below depth : Nat) → Scan
  | 0, _ => .unbalanced
  | p + 1, depth =>
    match Memory.lookup prog p with
    | none => .unspecified
    | some b =>
      if b = closeByte then scanBackwardFrom prog p (depth + 1)
      else if b = openByte then
        if depth = 0 then .found (BitVec.ofNat 17 (p + 1))
        else scanBackwardFrom prog p (depth - 1)
      else scanBackwardFrom prog p depth

/-- ScanBackward(IP) (R105): from `IP - 1`, counter 0. -/
def scanBackward (s : State) : Scan := scanBackwardFrom s.prog s.ip.toNat 0

/-! ### The scans in registers of the widths of rule R108

A 17-bit position and a 16-bit counter, with the tests `p + 1 = LEN` before incrementing and `p = 0` before
decrementing. The instructions use the scans above; an obligation says that these agree with them. The first
argument bounds the iterations: 65536 suffice. -/

/-- ScanForward in registers: `p` is the last position read. -/
def regScanForwardFrom (prog : Memory) (len : Index) : Nat → Index → BitVec 16 → Scan
  | 0, _, _ => .unbalanced
  | n + 1, p, depth =>
    if p + 1 = len then .unbalanced
    else
      match Memory.lookup prog (p + 1).toNat with
      | none => .unspecified
      | some b =>
        if b = openByte then regScanForwardFrom prog len n (p + 1) (depth + 1)
        else if b = closeByte then
          if depth = 0 then .found (p + 1 + 1)
          else regScanForwardFrom prog len n (p + 1) (depth - 1)
        else regScanForwardFrom prog len n (p + 1) depth

/-- ScanForward(IP) in registers (R108). -/
def regScanForward (s : State) : Scan := regScanForwardFrom s.prog s.len 65536 s.ip 0

/-- ScanBackward in registers: `p` is the last position read. -/
def regScanBackwardFrom (prog : Memory) : Nat → Index → BitVec 16 → Scan
  | 0, _, _ => .unbalanced
  | n + 1, p, depth =>
    if p = 0 then .unbalanced
    else
      match Memory.lookup prog (p - 1).toNat with
      | none => .unspecified
      | some b =>
        if b = closeByte then regScanBackwardFrom prog n (p - 1) (depth + 1)
        else if b = openByte then
          if depth = 0 then .found (p - 1 + 1)
          else regScanBackwardFrom prog n (p - 1) (depth - 1)
        else regScanBackwardFrom prog n (p - 1) depth

/-- ScanBackward(IP) in registers (R108). -/
def regScanBackward (s : State) : Scan := regScanBackwardFrom s.prog 65536 s.ip 0

end Sys2Proof.Machine
end

