-- ==== Sys2Proof/Machine/Loop.lean ====
section
/-! DEFINITION. The loop instructions (43_loop.md rules R102 and R103). -/

namespace Sys2Proof.Machine

/-- The end of a taken jump: IP to the scan's answer, or UnbalancedBracket with IP kept (R107, R114). -/
def jumpByScan (s : State) : Scan → Host.Outcome State Fault Refusal
  | .found ip => .next (s.setIp ip)
  | .unbalanced => .next (raiseFatal s .unbalancedBracket)
  | .unspecified => .fault .progUnspecified

/-- `[` (R102): with the current cell 0, ScanForward; otherwise IP + 1. -/
def execJz (s : State) : Host.Outcome State Fault Refusal :=
  if guardIsZero s then jumpByScan s (scanForward s) else .next (advanceIp s)

/-- `]` (R103): with the current cell not 0, ScanBackward; otherwise IP + 1. -/
def execJnz (s : State) : Host.Outcome State Fault Refusal :=
  if guardIsZero s then .next (advanceIp s) else jumpByScan s (scanBackward s)

end Sys2Proof.Machine
end

