-- ==== Sys2Proof/Machine/TapeOps.lean ====
section
/-! DEFINITION. The tape instructions (41_tape_ops.md rules R89 to R92). -/

namespace Sys2Proof.Machine

/-- `+` (R89): increment(AP), then IP + 1. -/
def execInc (s : State) : Host.Outcome State Fault Refusal :=
  .next (advanceIp (increment s (currentAddr s)))

/-- `-` (R90): decrement(AP), then IP + 1. -/
def execDec (s : State) : Host.Outcome State Fault Refusal :=
  .next (advanceIp (decrement s (currentAddr s)))

/-- `>` (R91): AP + 1 modulo 65536, then IP + 1. -/
def execRight (s : State) : Host.Outcome State Fault Refusal :=
  .next (advanceIp (s.setAp (s.ap + 1)))

/-- `<` (R92): AP - 1, which wraps to AP + 65535 modulo 65536, then IP + 1. -/
def execLeft (s : State) : Host.Outcome State Fault Refusal :=
  .next (advanceIp (s.setAp (s.ap - 1)))

end Sys2Proof.Machine
end

