-- ==== Sys2Proof/Machine/Status.lean ====
section
/-! DEFINITION. The derived run state (10_state.md rule R24) and the STATUS register (rule R25). -/

namespace Sys2Proof.Machine

/-- STATE, derived and not stored (R24). -/
inductive RunState where
  | running
  | halted
  | awaitingInput
  | fault
  deriving DecidableEq, Repr

/-- STATE, evaluated in the order of rule R24. -/
def runState (s : State) : RunState :=
  if s.cause ≠ .none then .fault
  else if s.await = true then .awaitingInput
  else if s.ip = s.len then .halted
  else .running

/-- The 2-bit code of CAUSE (R22). -/
def causeCode : Cause → BitVec 2
  | .none => 0
  | .capacityExceeded => 1
  | .unbalancedBracket => 2

/-- The 2-bit code of STATE (R25). -/
def runStateCode : RunState → BitVec 2
  | .running => 0
  | .halted => 1
  | .awaitingInput => 2
  | .fault => 3

/-- STATUS (R25): bits 7 and 6 read as 0, then LOADED, AWAIT, CAUSE and STATE. -/
def statusWord (s : State) : Byte :=
  (0 : BitVec 2) ++ BitVec.ofBool s.loaded ++ BitVec.ofBool s.await ++ causeCode s.cause
    ++ runStateCode (runState s)

end Sys2Proof.Machine
end

