-- ==== Sys2Proof/Machine/Stepper.lean ====
section
/-! DEFINITION. What one STEP does before an instruction runs (40_stepper.md rule R78). -/

namespace Sys2Proof.Machine

/-- What a STEP goes on to do. -/
inductive StepAction where
  /-- A no-op step: FAULT or HALTED (R79, R118). -/
  | idle
  /-- Run the decoded instruction. -/
  | run (i : Instr)
  /-- Stop with a fault of the model (U1, U2). -/
  | stop (f : Fault)
  deriving DecidableEq, Repr

/-- The checks of rule R78 in their order: CAUSE, then the fetch at IP, then decode.
AWAIT needs no case of its own. -/
def stepAction (s : State) : StepAction :=
  if s.cause ≠ .none then .idle
  else
    match fetch s with
    | .halted => .idle
    | .byte b => .run (decode b)
    | .pastLength => .stop .ipPastLength
    | .unspecified => .stop .progUnspecified

end Sys2Proof.Machine
end

