-- ==== Sys2Proof/Machine/Step.lean ====
section
/-! DEFINITION. The host operation STEP (40_stepper.md rule R78), and the placing of one instruction where the
next step fetches. -/

namespace Sys2Proof.Machine

/-- STEP (R78): one atomic transition. -/
def step (s : State) : Host.Outcome State Fault Refusal :=
  match stepAction s with
  | .idle => .next s
  | .run i => exec i s
  | .stop f => .fault f

/-- The state with an instruction word placed where `step` fetches next (log entry 11).
The instruction is the low byte of the word; bits from `nbits` on are 0. -/
def State.withFetchWord (s : State) (nbits w : Nat) : State :=
  placeFetchByte s (BitVec.ofNat 8 (w % 2 ^ nbits))

end Sys2Proof.Machine
end

