-- ==== Sys2Proof/Machine/HostPort.lean ====
section
/-! DEFINITION. The host's operations beside STEP: RESET, LOAD, the input channel, and the read-only
introspection and status ports (20_memory.md rules R45 to R48 and R55 to R59, 70_reset_and_hazards.md
rule R128). Each is one atomic function, so operations never overlap (rule R135, log entry 12). -/

namespace Sys2Proof.Machine

/-- RESET (R128): every piece of engine state takes its reset value. It performs no I/O, so the host's two
sequences stay (log entry 10). -/
def resetOp (s : State) : State := { State.reset with input := s.input, output := s.output }

/-- LOAD(bytes): refused while LOADED = 1 (R47), then the capacity check (R117), then the success path (R45) or
the failure path (R46, R113). On success PROG holds the new bytes alone; what lies at LEN and above is
unspecified (R20, log entry 14). -/
def load (bytes : List Byte) (s : State) : Host.Outcome State Fault Refusal :=
  if s.loaded = true then .refused .loadWhileLoaded
  else if bytes.length ≤ Config.progCap then
    .next { s with
      prog := programCells 0 bytes
      len := BitVec.ofNat 17 bytes.length
      ip := 0
      loaded := true }
  else
    .next (raiseFatal { s with len := 0, ip := 0, loaded := true } .capacityExceeded)

/-- The host makes one more byte available on the input channel (R96, R97, log entry 1). -/
def offerInput (b : Byte) (s : State) : State := s.setInput (s.input ++ [b])

/-- `current_address()` (R55). -/
def currentAddress (s : State) : Addr := s.ap

/-- `read(addr)` for any integer (R56). -/
def readPort (addr : Int) (s : State) : Byte := memRead s addr

/-- The hardware's read port with its 16-bit address input (R56). -/
def readPort16 (addr : Addr) (s : State) : Byte := memRead s (addr.toNat : Int)

/-- `read_range(lo, hi)` (R57): the inclusive integer range, empty when `lo > hi`. -/
def readRange (lo hi : Int) (s : State) : List Byte :=
  (List.range (hi - lo + 1).toNat).map fun (k : Nat) => readPort (lo + (k : Int)) s

/-- The status port's STATUS (R25, R59). -/
def statusPort (s : State) : Byte := statusWord s

/-- The status port's IP (R26). -/
def ipPort (s : State) : Index := s.ip

/-- The status port's LEN (R26). -/
def lenPort (s : State) : Index := s.len

/-- A read of one of the host's ports. -/
inductive Query where
  | currentAddress
  | read (addr : Int)
  | readRange (lo hi : Int)
  | status
  | ip
  | len
  deriving DecidableEq, Repr

/-- What a read answers: an address, cells, the STATUS byte or an index. -/
inductive Answer where
  | addr (a : Addr)
  | cells (bs : List Byte)
  | status (b : Byte)
  | index (i : Index)
  deriving DecidableEq, Repr

/-- The answers of the ports (R55 to R59). -/
def answer (s : State) : Query → Answer
  | .currentAddress => .addr (currentAddress s)
  | .read a => .cells [readPort a s]
  | .readRange lo hi => .cells (readRange lo hi s)
  | .status => .status (statusPort s)
  | .ip => .index (ipPort s)
  | .len => .index (lenPort s)

/-- The operations of the host (R14, R124). -/
inductive HostOp where
  | reset
  | load (bytes : List Byte)
  | step
  | offer (b : Byte)
  | query (q : Query)
  deriving DecidableEq, Repr

/-- One host operation. A read changes no state (R58, R59); `answer` is what it returns. -/
def hostOp (o : HostOp) (s : State) : Host.Outcome State Fault Refusal :=
  match o with
  | .reset => .next (resetOp s)
  | .load bytes => load bytes s
  | .step => step s
  | .offer b => .next (offerInput b s)
  | .query _ => .next s

/-- A sequence of host operations, stopping at the first fault or refusal (R131, R135). -/
def hostRun : List HostOp → State → Host.Outcome State Fault Refusal
  | [], s => .next s
  | o :: os, s =>
    match hostOp o s with
    | .next s' => hostRun os s'
    | .fault f => .fault f
    | .refused r => .refused r

end Sys2Proof.Machine
end

