-- ==== Sys2Proof/Safety.lean ====
section
/-! DEFINITION. The terms claims are stated in: the legal states (10_state.md rule R34), the end of a run
(40_stepper.md rule R85), and bracket matching said without the scanner (00_scope.md rules R12 and R13). -/

namespace Sys2Proof.Machine

/-! ### Legal states -/

/-- The six items of rule R34. Item 6 (CAUSE is never 3) holds of every state of the model (log entry 5). -/
abbrev State.Legal (s : State) : Prop :=
  (s.ip.toNat ≤ s.len.toNat ∧ s.len.toNat ≤ 65536) ∧
  (s.await = true → s.cause = .none ∧ s.ip.toNat < s.len.toNat ∧ progRead s s.ip.toNat = some 0x2E) ∧
  (s.cause = .unbalancedBracket → s.ip.toNat < s.len.toNat ∧
    (progRead s s.ip.toNat = some openByte ∨ progRead s s.ip.toNat = some closeByte)) ∧
  (s.cause = .capacityExceeded → s.len = 0 ∧ s.ip = 0 ∧ s.loaded = true) ∧
  (s.loaded = false → s.len = 0 ∧ s.ip = 0 ∧ s.cause = .none ∧ s.await = false) ∧
  causeCode s.cause ≠ 3

/-- Both memories are in their canonical form. -/
abbrev State.Canonical (s : State) : Prop :=
  Memory.wf tapeUnlisted Config.tapeCap s.tape ∧ Memory.wf progUnlisted Config.progCap s.prog

/-- LOAD has written every byte below LEN, so no rule reads an unspecified byte (R20, R50, R52). -/
abbrev State.Specified (s : State) : Prop :=
  ∀ i < s.len.toNat, (progRead s i).isSome = true

/-- The invariant of the model: rule R34, canonical memories, a program store written below LEN. -/
abbrev State.Inv (s : State) : Prop := s.Legal ∧ s.Canonical ∧ s.Specified

/-! ### The end of a run -/

/-- The run completed (R85). -/
abbrev Completed (s : State) : Prop := runState s = .halted

/-- The run was aborted by a fatal condition (R85, R118). -/
abbrev Aborted (s : State) : Prop := runState s = .fault

/-- The run has ended (R85): AWAITING_INPUT and RUNNING are not ends. -/
abbrev Ended (s : State) : Prop := Completed s ∨ Aborted s

/-! ### Brackets, without the scanner -/

/-- How one byte changes the nesting depth. -/
def bracketWeight (b : Byte) : Int :=
  if b = openByte then 1 else if b = closeByte then -1 else 0

/-- How a run of bytes changes the nesting depth. -/
def netDepth (bs : List Byte) : Int := (bs.map bracketWeight).sum

/-- No `]` closes more than was opened, and everything opened is closed. -/
def BracketsBalanced (bs : List Byte) : Prop :=
  netDepth bs = 0 ∧ ∀ n ≤ bs.length, 0 ≤ netDepth (bs.take n)

/-- The bytes strictly between positions `j` and `k`. -/
def between (bs : List Byte) (j k : Nat) : List Byte := (bs.drop (j + 1)).take (k - (j + 1))

/-- The `[` at `j` and the `]` at `k` are a matching pair: what stands between them is balanced, so both lie
at the same nesting depth (R12, R13). -/
def Matches (bs : List Byte) (j k : Nat) : Prop :=
  j < k ∧ bs[j]? = some openByte ∧ bs[k]? = some closeByte ∧ BracketsBalanced (between bs j k)

/-- The bytes below LEN are exactly the given ones (R45, R49). -/
def HoldsProgram (s : State) (bs : List Byte) : Prop :=
  s.len.toNat = bs.length ∧ ∀ i < bs.length, progRead s i = bs[i]?

/-! ### Host runs -/

/-- The bytes a sequence of host operations offers on the input channel, in order. -/
def offered : List HostOp → List Byte
  | [] => []
  | .offer b :: os => b :: offered os
  | _ :: os => offered os

/-- A sequence of host operations that only steps the engine and offers input. -/
def StepsAndOffers (os : List HostOp) : Prop := ∀ o ∈ os, o = .step ∨ ∃ b, o = .offer b

end Sys2Proof.Machine
end

