-- ==== Sys2Proof/Certificates/Slice0/Obligations.lean ====
section
/-! DEFINITION. The statements for the provers. Each docstring names the rule of spec/ it formalises.
A state written `{ s with … }` is the whole frame: every register it does not name is unchanged. -/

open Sys2Proof Sys2Proof.Machine

/-! ### Encoding -/

/-- Decoding the encoding of a well-formed instruction gives it back, and every byte is the encoding of the
well-formed instruction it decodes to (30_encoding.md rules R66, R67 and R70). -/
def Obligations.DecodeEncodeRoundTrip : Prop :=
  (∀ i : Instr, i.wf = true → decode (encode i) = i) ∧
  ∀ b : Byte, (decode b).wf = true ∧ encode (decode b) = b

/-- R67: the eight bytes decode to their instructions, every other byte is commentary, and the eight values
are distinct. -/
def Obligations.DecodeTable : Prop :=
  decode 0x2B = .inc ∧ decode 0x2D = .dec ∧ decode 0x3E = .right ∧ decode 0x3C = .left ∧
  decode 0x2C = .out ∧ decode 0x2E = .inp ∧ decode 0x5B = .jz ∧ decode 0x5D = .jnz ∧
  ([0x2B, 0x2D, 0x3E, 0x3C, 0x2C, 0x2E, 0x5B, 0x5D] : List Byte).Nodup ∧
  ∀ b : Byte, b ∉ ([0x2B, 0x2D, 0x3E, 0x3C, 0x2C, 0x2E, 0x5B, 0x5D] : List Byte) → decode b = .nop b

/-- Words of the opcode table, written bit by bit from its "encoding" column. The byte values are the
spec's, marked there as general knowledge (30_encoding.md R66, log entry 8). -/
def Obligations.OpcodeTableWords : Prop :=
  decodeTableWord 8 0b00101011 = some .inc ∧ decodeTableWord 8 0b00111110 = some .right ∧
  decodeTableWord 8 0b00101100 = some .out ∧ decodeTableWord 8 0b00101110 = some .inp ∧
  decodeTableWord 8 0b01011011 = some .jz ∧ decodeTableWord 8 0b01011101 = some .jnz ∧
  decodeTableWord 8 0b01011100 = some (.nop 0x5C)

/-! ### The instructions -/

/-- R89: `+` adds 1 modulo 256 to the current cell, changes no other cell, sets IP to IP + 1 and nothing
else, and halts the engine when the new IP is LEN. It always completes. -/
def Obligations.IncrementInstruction : Prop :=
  decode 0x2B = .inc ∧ ∀ s : State, ∃ t, exec .inc s = .next t ∧
    t = { s with tape := t.tape, ip := s.ip + 1 } ∧
    (memRead t (currentAddr s)).toNat = ((memRead s (currentAddr s)).toNat + 1) % 256 ∧
    (∀ a : Int, a % 65536 ≠ currentAddr s → memRead t a = memRead s a) ∧
    (s.cause = .none → s.await = false → s.ip + 1 = s.len → runState t = .halted)

/-- R90: `-` adds 255 modulo 256 to the current cell, changes no other cell, sets IP to IP + 1 and nothing
else. It always completes. -/
def Obligations.DecrementInstruction : Prop :=
  decode 0x2D = .dec ∧ ∀ s : State, ∃ t, exec .dec s = .next t ∧
    t = { s with tape := t.tape, ip := s.ip + 1 } ∧
    (memRead t (currentAddr s)).toNat = ((memRead s (currentAddr s)).toNat + 255) % 256 ∧
    ∀ a : Int, a % 65536 ≠ currentAddr s → memRead t a = memRead s a

/-- R91: `>` sets AP to AP + 1 modulo 65536 and IP to IP + 1, and changes nothing else; no cell is
written. It always completes. -/
def Obligations.RightInstruction : Prop :=
  decode 0x3E = .right ∧ ∀ s : State, ∃ t, exec .right s = .next t ∧
    t = { s with ap := t.ap, ip := s.ip + 1 } ∧
    t.ap.toNat = (s.ap.toNat + 1) % 65536 ∧ ∀ a : Int, memRead t a = memRead s a

/-- R92: `<` sets AP to AP + 65535 modulo 65536 and IP to IP + 1, and changes nothing else; no cell is
written. It always completes. -/
def Obligations.LeftInstruction : Prop :=
  decode 0x3C = .left ∧ ∀ s : State, ∃ t, exec .left s = .next t ∧
    t = { s with ap := t.ap, ip := s.ip + 1 } ∧
    t.ap.toNat = (s.ap.toNat + 65535) % 65536 ∧ ∀ a : Int, memRead t a = memRead s a

/-- `,` emits one output event that carries the current cell and sets IP to IP + 1; nothing else changes.
It always completes: that the sink accepts is the spec's decision D4 (log entry 2). -/
def Obligations.OutputInstruction : Prop :=
  decode 0x2C = .out ∧ ∀ s : State,
    exec .out s =
      .next { s with output := s.output ++ [memRead s (currentAddr s)], ip := s.ip + 1 }

/-- `.` with no byte available sets AWAIT and changes nothing else; with a byte available it stores the
oldest one into the current cell, clears AWAIT, sets IP to IP + 1, consumes that byte, and changes nothing
else. It always completes. AWAIT is the spec's decision D3; the input queue is the model's (log entry 1). -/
def Obligations.InputInstruction : Prop :=
  decode 0x2E = .inp ∧
  (∀ s : State, s.input = [] → exec .inp s = .next { s with await := true }) ∧
  ∀ (s : State) (b : Byte) (rest : List Byte), s.input = b :: rest → ∃ t, exec .inp s = .next t ∧
    t = { s with tape := t.tape, ip := s.ip + 1, await := false, input := rest } ∧
    memRead t (currentAddr s) = b ∧
    ∀ a : Int, a % 65536 ≠ currentAddr s → memRead t a = memRead s a

/-- R102: `[` with the current cell not 0 sets IP to IP + 1; with the cell 0 it sets IP to one past the
matching `]`, whatever stands between, or, where the program holds no matching `]`, raises
UnbalancedBracket, which writes CAUSE only. Matching is said without the scanner. -/
def Obligations.LoopBeginInstruction : Prop :=
  decode 0x5B = .jz ∧
  (∀ s : State, memRead s (currentAddr s) ≠ 0 → exec .jz s = .next { s with ip := s.ip + 1 }) ∧
  ∀ (s : State) (bs : List Byte), memRead s (currentAddr s) = 0 → HoldsProgram s bs →
    bs[s.ip.toNat]? = some openByte →
    (∀ k, Matches bs s.ip.toNat k → exec .jz s = .next { s with ip := BitVec.ofNat 17 (k + 1) }) ∧
    ((¬ ∃ k, Matches bs s.ip.toNat k) → exec .jz s = .next { s with cause := .unbalancedBracket })

/-- R103: `]` with the current cell 0 sets IP to IP + 1; with the cell not 0 it sets IP to one past the
matching `[`, or, where the program holds no matching `[`, raises UnbalancedBracket, which writes CAUSE
only. Matching is said without the scanner. -/
def Obligations.LoopEndInstruction : Prop :=
  decode 0x5D = .jnz ∧
  (∀ s : State, memRead s (currentAddr s) = 0 → exec .jnz s = .next { s with ip := s.ip + 1 }) ∧
  ∀ (s : State) (bs : List Byte), memRead s (currentAddr s) ≠ 0 → HoldsProgram s bs →
    bs[s.ip.toNat]? = some closeByte →
    (∀ j, Matches bs j s.ip.toNat → exec .jnz s = .next { s with ip := BitVec.ofNat 17 (j + 1) }) ∧
    ((¬ ∃ j, Matches bs j s.ip.toNat) → exec .jnz s = .next { s with cause := .unbalancedBracket })

/-- R111: every byte but the eight instruction bytes is commentary, and commentary sets IP to IP + 1 and
changes nothing else. It always completes. -/
def Obligations.CommentaryInstruction : Prop :=
  (∀ b : Byte, b ∉ ([0x2B, 0x2C, 0x2D, 0x2E, 0x3C, 0x3E, 0x5B, 0x5D] : List Byte) →
    decode b = .nop b) ∧
  ∀ (s : State) (b : Byte), exec (.nop b) s = .next { s with ip := s.ip + 1 }

/-- `+` then `-` restores a canonical state up to IP, and so does `-` then `+`; `>` then `<` and `<` then `>`
restore every state up to IP (41_tape_ops.md, arithmetic laws of the family). -/
def Obligations.TapeInstructionInverses : Prop :=
  (∀ s : State, s.Canonical →
    (∃ t, exec .inc s = .next t ∧ exec .dec t = .next { s with ip := s.ip + 1 + 1 }) ∧
    ∃ t, exec .dec s = .next t ∧ exec .inc t = .next { s with ip := s.ip + 1 + 1 }) ∧
  ∀ s : State,
    (∃ t, exec .right s = .next t ∧ exec .left t = .next { s with ip := s.ip + 1 + 1 }) ∧
    ∃ t, exec .left s = .next t ∧ exec .right t = .next { s with ip := s.ip + 1 + 1 }

/-! ### The stepper -/

/-- A step with no fatal condition and IP < LEN is exec of the decoded byte at IP, and exec of the
instruction whose encoding stands there (40_stepper.md, the STEP pseudocode). -/
def Obligations.StepRunsDecodedInstruction : Prop :=
  ∀ s : State, s.cause = .none → s.ip.toNat < s.len.toNat →
    (∀ b, progRead s s.ip.toNat = some b → step s = exec (decode b) s) ∧
    ∀ i : Instr, i.wf = true → progRead s s.ip.toNat = some (encode i) → step s = exec i s

/-- R50: the fetch answers the byte at IP when IP < LEN, and the sentinel Halted when IP = LEN. -/
def Obligations.FetchAnswersByteOrHalted : Prop :=
  ∀ s : State,
    (s.ip.toNat < s.len.toNat → ∀ b, progRead s s.ip.toNat = some b → fetch s = .byte b) ∧
    (s.ip.toNat = s.len.toNat → fetch s = .halted)

/-- R79: a halted step performs no mutation; the reset state, where no LOAD has been, is one. -/
def Obligations.HaltedStepChangesNothing : Prop :=
  (∀ s : State, s.cause = .none → s.ip = s.len → step s = .next s) ∧
  step State.reset = .next State.reset

/-- Once a run has ended (HALTED or FAULT), any number of steps leaves the whole state unchanged
(40_stepper.md halt idempotence, 60_exceptions.md section 4). That every later step of a FAULT is a no-op is the
spec's decision D10 (log entry 6). -/
def Obligations.EndedRunNeverChanges : Prop :=
  ∀ (s : State) (n : Nat), Ended s → Host.Core.run Sys2Proof.core n s = .next s

/-- Once CAUSE is nonzero a step changes nothing, and only RESET writes CAUSE again
(60_exceptions.md section 4, decision D10). -/
def Obligations.FatalConditionIsSticky : Prop :=
  (∀ s : State, s.cause ≠ .none → step s = .next s) ∧
  ∀ (o : HostOp) (s t : State), s.Inv → s.cause ≠ .none → o ≠ .reset → hostOp o s = .next t →
    t.cause = s.cause

/-- A step of a state that meets the invariant answers a next state: the model's stops are unreachable. -/
def Obligations.StepCompletesOnInvariantStates : Prop :=
  ∀ s : State, s.Inv → ∃ t, step s = .next t

/-- Every step keeps the invariant: the items of 10_state.md section 11, the canonical form of both memories,
and a program store written below LEN (log entry 3). -/
def Obligations.StepKeepsInvariant : Prop :=
  ∀ s t : State, s.Inv → step s = .next t → t.Inv

/-- RESET, LOAD, an offered input byte and a port read keep the invariant. -/
def Obligations.HostOperationsKeepInvariant : Prop :=
  ∀ (o : HostOp) (s t : State), o ≠ .step → s.Inv → hostOp o s = .next t → t.Inv

/-- The reset state meets the invariant. -/
def Obligations.ResetMeetsInvariant : Prop := State.reset.Inv

/-- The transition table of the stepper (40_stepper.md section 1), row by row, from every state that meets
the invariant: a step from HALTED, FAULT, AWAITING_INPUT (with and without a byte) and RUNNING (waiting, a
bracket whose scan leaves the bounds, retiring with IP < LEN or with IP = LEN), LOAD, and RESET. The states
FAULT and AWAITING_INPUT are the spec's decision D8 (log entry 6). -/
def Obligations.StepperTransitionTable : Prop :=
  (∀ s t : State, s.Inv → step s = .next t →
    (runState s = .halted → runState t = .halted) ∧
    (runState s = .fault → runState t = .fault) ∧
    (runState s = .awaitingInput → s.input = [] → runState t = .awaitingInput) ∧
    (runState s = .awaitingInput → s.input ≠ [] →
      runState t = if s.ip + 1 = s.len then .halted else .running) ∧
    (runState s = .running →
      (runState t = .awaitingInput ↔ progRead s s.ip.toNat = some 0x2E ∧ s.input = []) ∧
      (runState t = .fault ↔ t.cause = .unbalancedBracket) ∧
      (runState t = .fault →
        progRead s s.ip.toNat = some openByte ∨ progRead s s.ip.toNat = some closeByte) ∧
      (runState t = .fault ↔
        (progRead s s.ip.toNat = some 0x5B ∧ memRead s (currentAddr s) = 0 ∧ scanForward s = .unbalanced) ∨
        (progRead s s.ip.toNat = some 0x5D ∧ memRead s (currentAddr s) ≠ 0 ∧
          scanBackward s = .unbalanced)) ∧
      (runState t = .halted ↔ t.ip = t.len) ∧
      (runState t = .running ↔
        runState t ≠ .awaitingInput ∧ runState t ≠ .fault ∧ t.ip.toNat < t.len.toNat))) ∧
  (∀ (s t : State) (bytes : List Byte), s.Inv → hostOp (.load bytes) s = .next t →
    (runState t = if 65536 < bytes.length then .fault else if bytes = [] then .halted else .running) ∧
    (65536 < bytes.length → t.cause = .capacityExceeded)) ∧
  ∀ s : State, hostOp .reset s = .next (resetOp s) ∧ runState (resetOp s) = .halted ∧
    (resetOp s).loaded = false

/-- R86: a step raises only UnbalancedBracket, and only from `[` with the cell 0 or `]` with the cell not 0;
CapacityExceeded is raised only by a LOAD of more than 65536 bytes. -/
def Obligations.OnlyBracketsAndLoadRaise : Prop :=
  (∀ s t : State, step s = .next t → t.cause ≠ s.cause →
    t.cause = .unbalancedBracket ∧ s.cause = .none ∧
    ((progRead s s.ip.toNat = some 0x5B ∧ memRead s (currentAddr s) = 0) ∨
      (progRead s s.ip.toNat = some 0x5D ∧ memRead s (currentAddr s) ≠ 0))) ∧
  ∀ (o : HostOp) (s t : State), hostOp o s = .next t → t.cause = .capacityExceeded →
    s.cause ≠ .capacityExceeded → ∃ bytes, o = .load bytes ∧ 65536 < bytes.length

/-- UnbalancedBracket performs exactly one write, CAUSE, and keeps IP at the bracket (60_exceptions.md
section 1, decision D10). -/
def Obligations.UnbalancedBracketIsPrecise : Prop :=
  ∀ s t : State, step s = .next t → s.cause = .none → t.cause = .unbalancedBracket →
    t = { s with cause := .unbalancedBracket }

/-- R81: every instruction that retires without a taken jump sets IP to IP + 1, which never passes LEN. -/
def Obligations.SequentialAdvance : Prop :=
  ∀ (s : State) (b : Byte), s.cause = .none → s.ip.toNat < s.len.toNat →
    progRead s s.ip.toNat = some b →
    ¬ (b = 0x5B ∧ memRead s (currentAddr s) = 0) → ¬ (b = 0x5D ∧ memRead s (currentAddr s) ≠ 0) →
    ¬ (b = 0x2E ∧ s.input = []) →
    ∃ t, step s = .next t ∧ t.ip.toNat = s.ip.toNat + 1 ∧ t.ip.toNat ≤ t.len.toNat

/-- The target of a taken `[` lies after it and at most at LEN; the target of a taken `]` is at most its own
index, so a taken `]` does not halt (10_state.md section 4, 40_stepper.md section 2). A `]` that is not taken may
halt; SequentialAdvance is about that one. -/
def Obligations.JumpTargetsStayInProgram : Prop :=
  ∀ s t : State, s.cause = .none → s.ip.toNat < s.len.toNat → step s = .next t → t.cause = .none →
    (progRead s s.ip.toNat = some 0x5B → memRead s (currentAddr s) = 0 →
      s.ip.toNat + 1 < t.ip.toNat ∧ t.ip.toNat ≤ t.len.toNat) ∧
    (progRead s s.ip.toNat = some 0x5D → memRead s (currentAddr s) ≠ 0 →
      0 < t.ip.toNat ∧ t.ip.toNat ≤ s.ip.toNat ∧ runState t ≠ .halted)

/-- A step halts the engine only by a sequential advance from LEN - 1 or by a `[` whose jump ends at a `]` at
LEN - 1; once a loaded engine is HALTED, only RESET leaves that state (40_stepper.md section 2). -/
def Obligations.HaltingRule : Prop :=
  (∀ s t : State, s.Inv → runState s ≠ .halted → step s = .next t → runState t = .halted →
    t.ip = s.len ∧ ((s.ip.toNat + 1 = s.len.toNat) ∨
      (progRead s s.ip.toNat = some openByte ∧ memRead s (currentAddr s) = 0 ∧
        progRead s (s.len.toNat - 1) = some closeByte))) ∧
  ∀ (o : HostOp) (s t : State), s.loaded = true → runState s = .halted → o ≠ .reset →
    hostOp o s = .next t → runState t = .halted

/-! ### Which operation writes what -/

/-- AP is written by RESET and by a step of `>` or `<`, which wrap it, and by nothing else
(10_state.md section 3). -/
def Obligations.AddressPointerWriters : Prop :=
  ∀ (o : HostOp) (s t : State), hostOp o s = .next t → t.ap ≠ s.ap →
    o = .reset ∨ (o = .step ∧ s.cause = .none ∧ s.ip.toNat < s.len.toNat ∧
      ((progRead s s.ip.toNat = some 0x3E ∧ t.ap = s.ap + 1) ∨
        (progRead s s.ip.toNat = some 0x3C ∧ t.ap = s.ap - 1)))

/-- R16: at reset cell `i` holds `i mod 64`; between RESETs only a step of `+`, `-` or `.` writes a cell, and
only the current one. -/
def Obligations.TapeResetAndWriters : Prop :=
  (∀ i : Nat, i < 65536 → (memRead State.reset (i : Int)).toNat = i % 64) ∧
  (∀ (s : State) (a : Int), memRead (resetOp s) a = memRead State.reset a) ∧
  ∀ (o : HostOp) (s t : State), hostOp o s = .next t → o ≠ .reset →
    t.tape = s.tape ∨
    (o = .step ∧ (progRead s s.ip.toNat = some 0x2B ∨ progRead s s.ip.toNat = some 0x2D ∨
        progRead s s.ip.toNat = some 0x2E) ∧
      ∀ a : Int, a % 65536 ≠ currentAddr s → memRead t a = memRead s a)

/-- R51: no instruction writes the program store, its length or LOADED, and after LOAD nothing but RESET
does. -/
def Obligations.ProgramStoreImmutable : Prop :=
  (∀ (i : Instr) (s t : State), exec i s = .next t →
    t.prog = s.prog ∧ t.len = s.len ∧ t.loaded = s.loaded) ∧
  ∀ (o : HostOp) (s t : State), hostOp o s = .next t → s.loaded = true → o ≠ .reset →
    t.prog = s.prog ∧ t.len = s.len ∧ t.loaded = true

/-- The output record changes only in a step of `,`, by the current cell at its end; the input source changes
only by an offered byte at its end, or in a step of `.`, by its oldest byte, which the current cell then
holds (42_io.md section 2). The two sequences are the model's fields (log entries 1 and 2). -/
def Obligations.GatewayWriters : Prop :=
  ∀ (o : HostOp) (s t : State), hostOp o s = .next t →
    (t.output ≠ s.output → o = .step ∧ s.cause = .none ∧ s.ip.toNat < s.len.toNat ∧
      progRead s s.ip.toNat = some 0x2C ∧ t.output = s.output ++ [memRead s (currentAddr s)]) ∧
    (t.input ≠ s.input → (∃ b, o = .offer b ∧ t.input = s.input ++ [b]) ∨
      (o = .step ∧ s.cause = .none ∧ s.ip.toNat < s.len.toNat ∧
        progRead s s.ip.toNat = some 0x2E ∧
        ∃ b, s.input = b :: t.input ∧ memRead t (currentAddr t) = b))

/-- Over any sequence of host operations the output record only grows at its end, and the bytes consumed are
the oldest of those offered, in order (20_memory.md section 5). The two sequences are the model's fields (log
entries 1 and 2), and a sequence may hold a RESET, which keeps both (log entry 10). -/
def Obligations.InputOutputOrder : Prop :=
  ∀ (os : List HostOp) (s t : State), hostRun os s = .next t →
    (∃ emitted, t.output = s.output ++ emitted) ∧
    ∃ consumed, s.input ++ offered os = consumed ++ t.input

/-! ### The tape memory controller and the ports -/

/-- R37: every nominal address, however large or negative, reaches the cell at its floor residue modulo 65536,
for a read and for a write, and a write changes no other cell. No access faults. -/
def Obligations.TapeAccessWraps : Prop :=
  (∀ (s : State) (a : Int), memRead s a = memRead s (a % 65536)) ∧
  ∀ (s : State) (a b : Int) (v : Byte),
    memRead (memWrite s a v) b = if a % 65536 = b % 65536 then v else memRead s b

/-- R40 and R41: increment(a) and decrement(a) add 1 and 255 modulo 256 to the cell at `a mod 65536`, and change
no other cell and no register. -/
def Obligations.ControllerIncrementDecrement : Prop :=
  ∀ (s : State) (a : Int),
    (memRead (increment s a) a).toNat = ((memRead s a).toNat + 1) % 256 ∧
    (memRead (decrement s a) a).toNat = ((memRead s a).toNat + 255) % 256 ∧
    (∀ b : Int, b % 65536 ≠ a % 65536 →
      memRead (increment s a) b = memRead s b ∧ memRead (decrement s a) b = memRead s b) ∧
    increment s a = { s with tape := (increment s a).tape } ∧
    decrement s a = { s with tape := (decrement s a).tape }

/-- Two tapes in canonical form that read the same at every cell are the same data. -/
def Obligations.CanonicalTapeIsUnique : Prop :=
  ∀ s t : State, s.Canonical → t.Canonical →
    (∀ a : Int, memRead s a = memRead t a) → s.tape = t.tape

/-- `read` of any integer is the hardware port's read of the low 16 bits of its two's complement
(20_memory.md section 4, decision D15), and read(-1) and read(65536) are cells 65535 and 0. -/
def Obligations.ReadPortTakesLowBits : Prop :=
  ∀ s : State, (∀ a : Int, readPort a s = readPort16 (BitVec.ofInt 16 a) s) ∧
    readPort (-1) s = readPort 65535 s ∧ readPort 65536 s = readPort 0 s

/-- `read_range(lo, hi)` has hi - lo + 1 entries, the k-th being read(lo + k), and none when lo > hi
(20_memory.md section 4, decision D16). -/
def Obligations.ReadRangeEntries : Prop :=
  ∀ (s : State) (lo hi : Int),
    (lo ≤ hi → ((readRange lo hi s).length : Int) = hi - lo + 1 ∧
      ∀ k : Nat, (k : Int) ≤ hi - lo → (readRange lo hi s)[k]? = some (readPort (lo + k) s)) ∧
    (hi < lo → readRange lo hi s = [])

/-- What each port read answers, and that none changes the state (20_memory.md section 4, 10_state.md section 6):
`current_address()` is AP, `read(addr)` the cell at the floor residue, `read_range` its list of cells, and the
status port gives STATUS, IP and LEN. The status port is the spec's decision D9 (log entry 6). -/
def Obligations.PortReadsChangeNothing : Prop :=
  (∀ s : State, answer s .currentAddress = .addr s.ap ∧
    (∀ a : Int, answer s (.read a) = .cells [memRead s (a % 65536)]) ∧
    (∀ lo hi : Int, answer s (.readRange lo hi) = .cells (readRange lo hi s)) ∧
    answer s .status = .status (statusPort s) ∧
    answer s .ip = .index s.ip ∧ answer s .len = .index s.len) ∧
  ∀ (q : Query) (s : State), hostOp (.query q) s = .next s

/-- The STATUS register: STATE in bits 1 and 0 in the spec's order of evaluation, CAUSE in bits 3 and 2, AWAIT in
bit 4, LOADED in bit 5, zeros above; 0x01 at reset (10_state.md section 6, decision D8). -/
def Obligations.StatusLayout : Prop :=
  (∀ s : State,
    ((statusPort s).extractLsb' 0 2).toNat =
      (if s.cause ≠ .none then 3 else if s.await = true then 2 else if s.ip = s.len then 1 else 0) ∧
    ((statusPort s).extractLsb' 2 2).toNat =
      (match s.cause with
        | .none => 0
        | .capacityExceeded => 1
        | .unbalancedBracket => 2) ∧
    (statusPort s).getLsbD 4 = s.await ∧ (statusPort s).getLsbD 5 = s.loaded ∧
    (statusPort s).extractLsb' 6 2 = 0) ∧
  statusPort State.reset = 0x01

/-! ### Reset and LOAD -/

/-- R35: the reset state. -/
def Obligations.ResetState : Prop :=
  (∀ i : Nat, i < 65536 → (memRead State.reset (i : Int)).toNat = i % 64) ∧
  State.reset.ap = 0 ∧ State.reset.ip = 0 ∧ State.reset.len = 0 ∧ State.reset.loaded = false ∧
  State.reset.cause = .none ∧ State.reset.await = false ∧ runState State.reset = .halted ∧
  statusPort State.reset = 0x01

/-- RESET in any state gives the reset state and performs no I/O (70_reset_and_hazards.md section 1, decision D22;
that the host's two sequences stay is log entry 10). -/
def Obligations.ResetOperation : Prop :=
  ∀ s : State, hostOp .reset s =
    .next { State.reset with input := s.input, output := s.output }

/-- R45: a LOAD of at most 65536 bytes while LOADED = 0 makes PROG read as the bytes, sets LEN to their number,
IP to 0 and LOADED to 1, and changes nothing else; an empty program leaves the engine HALTED. -/
def Obligations.LoadSucceeds : Prop :=
  ∀ (s : State) (bytes : List Byte), s.loaded = false → bytes.length ≤ 65536 →
    ∃ t, load bytes s = .next t ∧
      t = { s with prog := t.prog, len := BitVec.ofNat 17 bytes.length, ip := 0, loaded := true } ∧
      t.len.toNat = bytes.length ∧ (∀ i < bytes.length, progRead t i = bytes[i]?) ∧
      (bytes = [] → s.cause = .none → s.await = false → runState t = .halted)

/-- R46: a LOAD of more than 65536 bytes while LOADED = 0 sets LEN and IP to 0, LOADED to 1 and CAUSE to 1, and
changes nothing else; the program length then reads 0. -/
def Obligations.LoadExceedsCapacity : Prop :=
  ∀ (s : State) (bytes : List Byte), s.loaded = false → 65536 < bytes.length →
    ∃ t, load bytes s = .next t ∧
      t = { s with len := 0, ip := 0, loaded := true, cause := .capacityExceeded } ∧
      answer t .len = .index 0

/-- A LOAD while LOADED = 1 is refused (20_memory.md section 2, decision D12). -/
def Obligations.SecondLoadRefused : Prop :=
  ∀ (s : State) (bytes : List Byte), s.loaded = true → load bytes s = .refused .loadWhileLoaded

/-- After RESET and a LOAD of a program, from any state, the first step is exec of the program's first byte
(70_reset_and_hazards.md section 2, 10_state.md section 12). -/
def Obligations.BootRunsFirstByte : Prop :=
  ∀ (s : State) (b : Byte) (rest : List Byte), (b :: rest).length ≤ 65536 →
    ∃ t, hostRun [.reset, .load (b :: rest)] s = .next t ∧ t.ip = 0 ∧ HoldsProgram t (b :: rest) ∧
      step t = exec (decode b) t

/-! ### The bracket scanner -/

/-- R104: ScanForward starts one past IP with counter 0, and its loop at position `p` with counter `d` raises
UnbalancedBracket when `p >= LEN`, counts a `[` up, returns `p + 1` at a `]` with counter 0, counts a `]` down
otherwise, and passes over every other byte. -/
def Obligations.ForwardScanLoop : Prop :=
  ∀ s : State, scanForward s =
      scanForwardFrom s.prog (s.len.toNat - (s.ip.toNat + 1)) (s.ip.toNat + 1) 0 ∧
    ∀ p d : Nat,
      (s.len.toNat ≤ p → scanForwardFrom s.prog (s.len.toNat - p) p d = .unbalanced) ∧
      ∀ b, p < s.len.toNat → progRead s p = some b →
        scanForwardFrom s.prog (s.len.toNat - p) p d =
          if b = 0x5B then scanForwardFrom s.prog (s.len.toNat - (p + 1)) (p + 1) (d + 1)
          else if b = 0x5D ∧ d = 0 then .found (BitVec.ofNat 17 (p + 1))
          else if b = 0x5D then scanForwardFrom s.prog (s.len.toNat - (p + 1)) (p + 1) (d - 1)
          else scanForwardFrom s.prog (s.len.toNat - (p + 1)) (p + 1) d

/-- ScanBackward (43_loop.md section 2) starts one below IP with counter 0, and its loop raises UnbalancedBracket below position 0;
at position `p` with counter `d` it counts a `]` up, returns `p + 1` at a `[` with counter 0, counts a `[` down
otherwise, and passes over every other byte. That a `[` at a nonzero counter counts down is the spec's own
reading, not its source's text: "That a `[` seen at a nonzero counter decrements the counter is the symmetric
reading of rule R104, which the word "symmetric" requires" (43_loop.md section 2; N18). -/
def Obligations.BackwardScanLoop : Prop :=
  ∀ s : State, scanBackward s = scanBackwardFrom s.prog s.ip.toNat 0 ∧
    ∀ p d : Nat,
      scanBackwardFrom s.prog 0 d = .unbalanced ∧
      ∀ b, progRead s p = some b →
        scanBackwardFrom s.prog (p + 1) d =
          if b = 0x5D then scanBackwardFrom s.prog p (d + 1)
          else if b = 0x5B ∧ d = 0 then .found (BitVec.ofNat 17 (p + 1))
          else if b = 0x5B then scanBackwardFrom s.prog p (d - 1)
          else scanBackwardFrom s.prog p d

/-- The scans in a 17-bit position register and a 16-bit counter answer what the scans of the instructions answer:
the counter never overflows or underflows (43_loop.md section 2, widths; the register scans of the model are those of
log entry 17). -/
def Obligations.RegisterScannerAgrees : Prop :=
  ∀ s : State, s.len.toNat ≤ 65536 → s.ip.toNat < s.len.toNat →
    regScanForward s = scanForward s ∧ regScanBackward s = scanBackward s

/-- R106: in a well-formed program every `[` has a unique matching `]` and every `]` a unique matching `[`, and the
two scans are inverse; so neither raises UnbalancedBracket there. -/
def Obligations.BracketSymmetry : Prop :=
  ∀ bs : List Byte, BracketsBalanced bs →
    (∀ j, bs[j]? = some openByte → ∃! k, Matches bs j k) ∧
    (∀ k, bs[k]? = some closeByte → ∃! j, Matches bs j k) ∧
    ∀ (s : State) (j k : Nat), HoldsProgram s bs → Matches bs j k →
      (s.ip.toNat = j → scanForward s = .found (BitVec.ofNat 17 (k + 1))) ∧
      (s.ip.toNat = k → scanBackward s = .found (BitVec.ofNat 17 (j + 1)))

/-- A balanced program never raises UnbalancedBracket: from any state that holds it with no fatal condition and
IP within it, every number of steps answers a next state with no fatal condition (43_loop.md section 2). -/
def Obligations.BalancedProgramNeverFaults : Prop :=
  ∀ (s : State) (bs : List Byte) (n : Nat), HoldsProgram s bs → BracketsBalanced bs → s.cause = .none →
    s.ip.toNat ≤ s.len.toNat →
    ∃ t : State, Host.Core.run Sys2Proof.core n s = .next t ∧ t.cause = .none ∧ HoldsProgram t bs ∧
      t.ip.toNat ≤ t.len.toNat

/-- R107: `[` and `]` write nothing but IP, and on a fault nothing but CAUSE. -/
def Obligations.ScanWritesOnlyIpOrCause : Prop :=
  ∀ (i : Instr) (s t : State), i = .jz ∨ i = .jnz → exec i s = .next t →
    t = { s with ip := t.ip } ∨ t = { s with cause := .unbalancedBracket }

/-! ### Waiting for input -/

/-- The blocking design and the AWAIT design agree (42_io.md section 2, decision D3): whatever sequence of steps and
offered bytes the host issues, the state reached is, up to AWAIT, the one reached by some number of steps when
every byte is available from the start, none of which waits. The input queue of the model stands for the source (log
entry 1). -/
def Obligations.DeletingWaitsGivesBlockingRun : Prop :=
  ∀ (os : List HostOp) (s t : State), StepsAndOffers os → hostRun os s = .next t →
    ∃ n : Nat,
      (∀ m ≤ n, ∃ u : State, Host.Core.run Sys2Proof.core m
        { s with input := s.input ++ offered os, await := false } = .next u ∧ u.await = false) ∧
      Host.Core.run Sys2Proof.core n
        { s with input := s.input ++ offered os, await := false } = .next { t with await := false }
end

