-- ==== Sys2Proof/Laws/Scanner.lean ====
section
/-! SUPPORT. Where the scans can end. -/

namespace Sys2Proof.Machine

/-- A forward match is a listed `]` at some position of the scanned range; the answer is one past it. -/
theorem scanForwardFrom_found {prog : Memory} {left p depth : Nat} {q : Index}
    (h : scanForwardFrom prog left p depth = .found q) :
    ∃ k, p ≤ k ∧ k < p + left ∧ Memory.lookup prog k = some closeByte ∧ q = BitVec.ofNat 17 (k + 1) := by
  induction left generalizing p depth with
  | zero => simp [scanForwardFrom] at h
  | succ left ih =>
    have lift : (∃ k, p + 1 ≤ k ∧ k < p + 1 + left ∧ Memory.lookup prog k = some closeByte ∧
        q = BitVec.ofNat 17 (k + 1)) → ∃ k, p ≤ k ∧ k < p + (left + 1) ∧
        Memory.lookup prog k = some closeByte ∧ q = BitVec.ofNat 17 (k + 1) := by
      rintro ⟨k, h1, h2, h3, h4⟩
      exact ⟨k, by omega, by omega, h3, h4⟩
    unfold scanForwardFrom at h
    split at h
    · cases h
    · rename_i b hb
      split at h
      · exact lift (ih h)
      · split at h
        · rename_i hclose
          split at h
          · cases h
            exact ⟨p, le_refl _, by omega, hclose ▸ hb, rfl⟩
          · exact lift (ih h)
        · exact lift (ih h)

/-- A backward match is a listed `[` below the start; the answer is one past it. -/
theorem scanBackwardFrom_found {prog : Memory} {below depth : Nat} {q : Index}
    (h : scanBackwardFrom prog below depth = .found q) :
    ∃ j, j < below ∧ Memory.lookup prog j = some openByte ∧ q = BitVec.ofNat 17 (j + 1) := by
  induction below generalizing depth with
  | zero => simp [scanBackwardFrom] at h
  | succ p ih =>
    have lift : (∃ j, j < p ∧ Memory.lookup prog j = some openByte ∧ q = BitVec.ofNat 17 (j + 1)) →
        ∃ j, j < p + 1 ∧ Memory.lookup prog j = some openByte ∧ q = BitVec.ofNat 17 (j + 1) := by
      rintro ⟨j, h1, h2, h3⟩
      exact ⟨j, by omega, h2, h3⟩
    unfold scanBackwardFrom at h
    split at h
    · cases h
    · rename_i b hb
      split at h
      · exact lift (ih h)
      · split at h
        · rename_i hopen
          split at h
          · cases h
            exact ⟨p, by omega, hopen ▸ hb, rfl⟩
          · exact lift (ih h)
        · exact lift (ih h)

/-- A forward scan reads an unspecified byte only where the range holds one. -/
theorem scanForwardFrom_ne_unspecified {prog : Memory} {left p : Nat} (depth : Nat)
    (h : ∀ i, p ≤ i → i < p + left → (Memory.lookup prog i).isSome = true) :
    scanForwardFrom prog left p depth ≠ .unspecified := by
  induction left generalizing p depth with
  | zero => simp [scanForwardFrom]
  | succ left ih =>
    have next := fun d => ih (p := p + 1) d (fun i h1 h2 => h i (by omega) (by omega))
    obtain ⟨b, hb⟩ := Option.isSome_iff_exists.1 (h p (le_refl _) (by omega))
    simp only [scanForwardFrom, hb]
    split
    · exact next _
    · split
      · split
        · simp
        · exact next _
      · exact next _

/-- A backward scan reads an unspecified byte only where the range holds one. -/
theorem scanBackwardFrom_ne_unspecified {prog : Memory} {below : Nat} (depth : Nat)
    (h : ∀ i, i < below → (Memory.lookup prog i).isSome = true) :
    scanBackwardFrom prog below depth ≠ .unspecified := by
  induction below generalizing depth with
  | zero => simp [scanBackwardFrom]
  | succ p ih =>
    have next := fun d => ih d (fun i h1 => h i (by omega))
    obtain ⟨b, hb⟩ := Option.isSome_iff_exists.1 (h p (by omega))
    simp only [scanBackwardFrom, hb]
    split
    · exact next _
    · split
      · split
        · simp
        · exact next _
      · exact next _

end Sys2Proof.Machine
end

