-- ==== Sys2Proof/Laws/Brackets.lean ====
section
/-! SUPPORT. Nesting depth as a function of position, matching said with it, and what the two scans answer in
terms of it. -/

namespace Sys2Proof.Machine

/-- The nesting depth before position `n`. -/
def depthAt (bs : List Byte) (n : Nat) : Int := netDepth (bs.take n)

theorem netDepth_append (xs ys : List Byte) : netDepth (xs ++ ys) = netDepth xs + netDepth ys := by
  simp [netDepth]

@[simp] theorem depthAt_zero (bs : List Byte) : depthAt bs 0 = 0 := rfl

theorem depthAt_succ {bs : List Byte} {n : Nat} {b : Byte} (h : bs[n]? = some b) :
    depthAt bs (n + 1) = depthAt bs n + bracketWeight b := by
  unfold depthAt
  rw [List.take_add_one, h, netDepth_append]
  simp [netDepth]

theorem netDepth_between_take (bs : List Byte) {j k n : Nat} (hn : n ≤ k - (j + 1)) :
    netDepth ((between bs j k).take n) = depthAt bs (j + 1 + n) - depthAt bs (j + 1) := by
  have h : bs.take (j + 1 + n) = bs.take (j + 1) ++ (between bs j k).take n := by
    rw [List.take_add, between, List.take_take, Nat.min_eq_left hn]
  unfold depthAt
  rw [h, netDepth_append]
  omega

/-- Matching, said with the depth function alone. -/
theorem matches_iff (bs : List Byte) (j k : Nat) :
    Matches bs j k ↔ j < k ∧ bs[j]? = some openByte ∧ bs[k]? = some closeByte ∧
      depthAt bs k = depthAt bs (j + 1) ∧
      ∀ m, j + 1 ≤ m → m ≤ k → depthAt bs (j + 1) ≤ depthAt bs m := by
  unfold Matches BracketsBalanced
  refine and_congr_right fun hjk => and_congr_right fun _ => and_congr_right fun hk => ?_
  have hklt : k < bs.length := by
    by_contra hge
    rw [List.getElem?_eq_none (not_lt.1 hge)] at hk
    cases hk
  have hlen : (between bs j k).length = k - (j + 1) := by
    simp only [between, List.length_take, List.length_drop]
    omega
  have hall : netDepth (between bs j k) = depthAt bs k - depthAt bs (j + 1) := by
    have := netDepth_between_take bs (le_refl (k - (j + 1)))
    rwa [List.take_of_length_le (le_of_eq hlen), show j + 1 + (k - (j + 1)) = k by omega] at this
  rw [hlen, hall]
  constructor
  · rintro ⟨h0, hp⟩
    refine ⟨by omega, fun m h1 h2 => ?_⟩
    have := hp (m - (j + 1)) (by omega)
    rw [netDepth_between_take bs (by omega), show j + 1 + (m - (j + 1)) = m by omega] at this
    omega
  · rintro ⟨h0, hp⟩
    refine ⟨by omega, fun n hn => ?_⟩
    rw [netDepth_between_take bs hn]
    have := hp (j + 1 + n) (by omega) (by omega)
    omega

theorem getElem?_some_of_lt {bs : List Byte} {i : Nat} (h : i < bs.length) : ∃ b, bs[i]? = some b :=
  ⟨bs[i], List.getElem?_eq_getElem h⟩

theorem openByte_ne_closeByte : openByte ≠ closeByte := by decide

@[simp] theorem bracketWeight_open : bracketWeight openByte = 1 := rfl
@[simp] theorem bracketWeight_close : bracketWeight closeByte = -1 := rfl

theorem bracketWeight_other {b : Byte} (h1 : b ≠ openByte) (h2 : b ≠ closeByte) : bracketWeight b = 0 := by
  simp [bracketWeight, h1, h2]

/-- Where a forward scan at position `p` with counter `d` ends: the first `]` that takes the depth below
where counter 0 stands. -/
def ForwardEnd (bs : List Byte) (p d k : Nat) : Prop :=
  p ≤ k ∧ bs[k]? = some closeByte ∧ depthAt bs k = depthAt bs p - d ∧
    ∀ m, p ≤ m → m ≤ k → depthAt bs p - d ≤ depthAt bs m

/-- Where a backward scan below position `p` with counter `d` ends. -/
def BackwardEnd (bs : List Byte) (p d j : Nat) : Prop :=
  j < p ∧ bs[j]? = some openByte ∧ depthAt bs (j + 1) = depthAt bs p - d ∧
    ∀ m, j + 1 ≤ m → m ≤ p → depthAt bs p - d ≤ depthAt bs m

theorem ForwardEnd.step {bs : List Byte} {p d d' k : Nat} {b : Byte} (hb : bs[p]? = some b)
    (hd : (d' : Int) = d + bracketWeight b) (hne : ¬ (b = closeByte ∧ d = 0)) :
    ForwardEnd bs p d k ↔ ForwardEnd bs (p + 1) d' k := by
  have hs := depthAt_succ hb
  constructor
  · rintro ⟨h1, h2, h3, h4⟩
    have hpk : p ≠ k := by
      rintro rfl
      rw [hb] at h2
      exact hne ⟨Option.some.inj h2, by omega⟩
    exact ⟨by omega, h2, by omega, fun m a c => by have := h4 m (by omega) c; omega⟩
  · rintro ⟨h1, h2, h3, h4⟩
    refine ⟨by omega, h2, by omega, fun m a c => ?_⟩
    rcases Nat.eq_or_lt_of_le a with rfl | a
    · omega
    · have := h4 m a c
      omega

theorem BackwardEnd.step {bs : List Byte} {p d d' j : Nat} {b : Byte} (hb : bs[p]? = some b)
    (hd : (d' : Int) = d - bracketWeight b) (hne : ¬ (b = openByte ∧ d = 0)) :
    BackwardEnd bs (p + 1) d j ↔ BackwardEnd bs p d' j := by
  have hs := depthAt_succ hb
  constructor
  · rintro ⟨h1, h2, h3, h4⟩
    have hpj : p ≠ j := by
      rintro rfl
      rw [hb] at h2
      exact hne ⟨Option.some.inj h2, by omega⟩
    exact ⟨by omega, h2, by omega, fun m a c => by have := h4 m a (by omega); omega⟩
  · rintro ⟨h1, h2, h3, h4⟩
    refine ⟨by omega, h2, by omega, fun m a c => ?_⟩
    rcases Nat.eq_or_lt_of_le c with rfl | c
    · omega
    · have := h4 m a (by omega)
      omega

/-- Everything a forward scan over specified bytes can answer. -/
theorem scanForwardFrom_spec {prog : Memory} {bs : List Byte}
    (hprog : ∀ i < bs.length, Memory.lookup prog i = bs[i]?) (left p d : Nat) (hp : p + left = bs.length) :
    (∃ k, ForwardEnd bs p d k ∧ scanForwardFrom prog left p d = .found (BitVec.ofNat 17 (k + 1))) ∨
    ((∀ k, ¬ ForwardEnd bs p d k) ∧ scanForwardFrom prog left p d = .unbalanced) := by
  induction left generalizing p d with
  | zero =>
    refine .inr ⟨fun k hk => ?_, rfl⟩
    have := hk.2.1
    rw [List.getElem?_eq_none (by have := hk.1; omega)] at this
    cases this
  | succ left ih =>
    obtain ⟨b, hb⟩ := getElem?_some_of_lt (bs := bs) (i := p) (by omega)
    have hl := (hprog p (by omega)).trans hb
    by_cases ho : b = openByte
    · subst ho
      have e := fun k => ForwardEnd.step (k := k) (d := d) (d' := d + 1) hb (by simp)
        (fun h => openByte_ne_closeByte h.1)
      simpa only [scanForwardFrom, hl, if_true, e] using ih (p + 1) (d + 1) (by omega)
    by_cases hc : b = closeByte
    · subst hc
      by_cases hd : d = 0
      · subst hd
        refine .inl ⟨p, ⟨le_refl _, hb, by simp, fun m a c => ?_⟩, ?_⟩
        · have : m = p := le_antisymm c a
          simp [this]
        · simp [scanForwardFrom, hl, ho]
      · have e := fun k => ForwardEnd.step (k := k) (d := d) (d' := d - 1) hb (by simp; omega)
          (fun h => hd h.2)
        simpa only [scanForwardFrom, hl, ho, hd, if_false, if_true, e] using ih (p + 1) (d - 1) (by omega)
    · have e := fun k => ForwardEnd.step (k := k) (d := d) (d' := d) hb (by simp [bracketWeight_other ho hc])
        (fun h => hc h.1)
      simpa only [scanForwardFrom, hl, ho, hc, if_false, e] using ih (p + 1) d (by omega)

/-- Everything a backward scan over specified bytes can answer. -/
theorem scanBackwardFrom_spec {prog : Memory} {bs : List Byte}
    (hprog : ∀ i < bs.length, Memory.lookup prog i = bs[i]?) (p d : Nat) (hp : p ≤ bs.length) :
    (∃ j, BackwardEnd bs p d j ∧ scanBackwardFrom prog p d = .found (BitVec.ofNat 17 (j + 1))) ∨
    ((∀ j, ¬ BackwardEnd bs p d j) ∧ scanBackwardFrom prog p d = .unbalanced) := by
  induction p generalizing d with
  | zero => exact .inr ⟨fun j hj => absurd hj.1 (Nat.not_lt_zero j), rfl⟩
  | succ p ih =>
    obtain ⟨b, hb⟩ := getElem?_some_of_lt (bs := bs) (i := p) (by omega)
    have hl := (hprog p (by omega)).trans hb
    by_cases hc : b = closeByte
    · subst hc
      have e := fun j => BackwardEnd.step (j := j) (d := d) (d' := d + 1) hb (by simp)
        (fun h => openByte_ne_closeByte h.1.symm)
      simpa only [scanBackwardFrom, hl, if_true, e] using ih (d + 1) (by omega)
    by_cases ho : b = openByte
    · subst ho
      by_cases hd : d = 0
      · subst hd
        refine .inl ⟨p, ⟨Nat.lt_succ_self p, hb, by simp, fun m a c => ?_⟩, ?_⟩
        · have : m = p + 1 := le_antisymm c a
          simp [this]
        · simp [scanBackwardFrom, hl, hc]
      · have e := fun j => BackwardEnd.step (j := j) (d := d) (d' := d - 1) hb (by simp; omega)
          (fun h => hd h.2)
        simpa only [scanBackwardFrom, hl, hc, hd, if_false, if_true, e] using ih (d - 1) (by omega)
    · have e := fun j => BackwardEnd.step (j := j) (d := d) (d' := d) hb (by simp [bracketWeight_other ho hc])
        (fun h => ho h.1)
      simpa only [scanBackwardFrom, hl, ho, hc, if_false, e] using ih d (by omega)

end Sys2Proof.Machine
end

