-- ==== Sys2Proof/Laws/Memory.lean ====
section
/-! SUPPORT. What the memory operations do: a read after a write, and that every operation keeps the
canonical form. -/

namespace Sys2Proof.Machine

variable (m : Memory) (a b : Nat) (v : Byte)

/-! ### Read after write -/

@[simp] theorem lookup_nil : Memory.lookup [] a = none := rfl

theorem lookup_cons (c : Host.Cell) :
    Memory.lookup (c :: m) a = if c.1 = a then some c.2 else Memory.lookup m a := rfl

theorem lookup_put :
    Memory.lookup (Memory.put m a v) b = if a = b then some v else Memory.lookup m b := by
  induction m with
  | nil => rfl
  | cons c m ih =>
    unfold Memory.put
    split_ifs <;> simp only [lookup_cons, ih] <;> grind

theorem lookup_erase :
    Memory.lookup (Memory.erase m a) b = if a = b then none else Memory.lookup m b := by
  induction m with
  | nil => simp [Memory.erase]
  | cons c m ih =>
    unfold Memory.erase
    split_ifs <;> simp only [lookup_cons, ih] <;> grind

/-- A read after a write, with what an unlisted address reads as. -/
theorem lookup_write (unl : Nat → Option Byte) :
    (Memory.lookup (Memory.write unl m a v) b).or (unl b) =
      if a = b then some v else (Memory.lookup m b).or (unl b) := by
  unfold Memory.write
  by_cases hab : a = b
  · subst hab
    by_cases hu : unl a = some v
    · simp [hu, lookup_erase]
    · simp [hu, lookup_put]
  · by_cases hu : unl a = some v <;> simp [hu, lookup_erase, lookup_put, hab]

/-! ### The canonical form -/

theorem mem_put {c : Host.Cell} (h : c ∈ Memory.put m a v) : c = (a, v) ∨ c ∈ m := by
  induction m with
  | nil => simpa [Memory.put] using h
  | cons d m ih =>
    unfold Memory.put at h
    split at h
    · simpa using h
    · split at h
      · simp only [List.mem_cons] at h ⊢
        tauto
      · simp only [List.mem_cons] at h ⊢
        rcases h with h | h
        · exact .inr (.inl h)
        · rcases ih h with h | h
          · exact .inl h
          · exact .inr (.inr h)

theorem mem_erase {c : Host.Cell} (h : c ∈ Memory.erase m a) : c ∈ m := by
  induction m with
  | nil => exact h
  | cons d m ih =>
    unfold Memory.erase at h
    split at h
    · exact List.mem_cons_of_mem _ (ih h)
    · rcases List.mem_cons.1 h with h | h
      · exact h ▸ List.mem_cons_self
      · exact List.mem_cons_of_mem _ (ih h)

theorem rising_put (h : m.Pairwise (fun c d => c.1 < d.1)) :
    (Memory.put m a v).Pairwise (fun c d => c.1 < d.1) := by
  induction m with
  | nil => simp [Memory.put]
  | cons c m ih =>
    obtain ⟨hc, hm⟩ := List.pairwise_cons.1 h
    unfold Memory.put
    split
    case isTrue hlt =>
      refine List.pairwise_cons.2 ⟨fun d hd => ?_, h⟩
      rcases List.mem_cons.1 hd with rfl | hd
      · exact hlt
      · exact lt_trans hlt (hc d hd)
    case isFalse hlt =>
      split
      case isTrue heq => exact List.pairwise_cons.2 ⟨fun d hd => heq ▸ hc d hd, hm⟩
      case isFalse hne =>
        refine List.pairwise_cons.2 ⟨fun d hd => ?_, ih hm⟩
        rcases mem_put m a v hd with rfl | hd
        · exact lt_of_le_of_ne (not_lt.1 hlt) (Ne.symm hne)
        · exact hc d hd

theorem rising_erase (h : m.Pairwise (fun c d => c.1 < d.1)) :
    (Memory.erase m a).Pairwise (fun c d => c.1 < d.1) := by
  induction m with
  | nil => exact h
  | cons c m ih =>
    obtain ⟨hc, hm⟩ := List.pairwise_cons.1 h
    unfold Memory.erase
    split
    · exact ih hm
    · exact List.pairwise_cons.2 ⟨fun d hd => hc d (mem_erase m a hd), ih hm⟩

/-- A write below the capacity keeps the canonical form. -/
theorem write_wf {unl : Nat → Option Byte} {cap : Nat} (hm : Memory.wf unl cap m) (ha : a < cap) :
    Memory.wf unl cap (Memory.write unl m a v) := by
  unfold Memory.write
  split
  case isTrue => exact ⟨rising_erase m a hm.1, fun c hc => hm.2 c (mem_erase m a hc)⟩
  case isFalse hne =>
    refine ⟨rising_put m a v hm.1, fun c hc => ?_⟩
    rcases mem_put m a v hc with rfl | hc
    · exact ⟨ha, hne⟩
    · exact hm.2 c hc

theorem wf_nil (unl : Nat → Option Byte) (cap : Nat) : Memory.wf unl cap [] := by
  simp [Memory.wf]

/-! ### The nominal address -/

theorem cellIndex_lt (a : Int) : cellIndex a < 65536 := by
  unfold cellIndex Config.tapeCap
  omega

@[simp] theorem cellIndex_addr (a : Addr) : cellIndex (a.toNat : Int) = a.toNat := by
  have := a.isLt
  unfold cellIndex Config.tapeCap
  omega

theorem cellIndex_eq_iff (a b : Int) : cellIndex a = cellIndex b ↔ a % 65536 = b % 65536 := by
  unfold cellIndex Config.tapeCap
  omega

/-! ### The loaded program store -/

theorem lookup_programCells (bs : List Byte) (i n : Nat) :
    Memory.lookup (programCells i bs) n = if n < i then none else bs[n - i]? := by
  induction bs generalizing i with
  | nil => simp [programCells]
  | cons b bs ih =>
    simp only [programCells, lookup_cons, ih]
    by_cases h : i = n
    · simp [h]
    · by_cases hn : n < i
      · simp [h, hn, Nat.lt_succ_of_lt hn]
      · have h1 : ¬ n < i + 1 := by omega
        have h2 : n - i = (n - (i + 1)) + 1 := by omega
        simp [h, hn, h1, h2]

theorem mem_programCells (bs : List Byte) (i : Nat) {c : Host.Cell} (h : c ∈ programCells i bs) :
    i ≤ c.1 ∧ c.1 < i + bs.length := by
  induction bs generalizing i with
  | nil => simp [programCells] at h
  | cons b bs ih =>
    rcases List.mem_cons.1 h with rfl | h
    · simp
    · have := ih (i + 1) h
      simp only [List.length_cons]
      omega

theorem programCells_wf (bs : List Byte) (i : Nat) (h : i + bs.length ≤ 65536) :
    Memory.wf progUnlisted Config.progCap (programCells i bs) := by
  refine ⟨?_, fun c hc => ⟨?_, by simp [progUnlisted]⟩⟩
  · clear h
    induction bs generalizing i with
    | nil => simp [programCells]
    | cons b bs ih =>
      refine List.pairwise_cons.2 ⟨fun d hd => ?_, ih (i + 1)⟩
      exact (mem_programCells bs (i + 1) hd).1
  · have := mem_programCells bs i hc
    unfold Config.progCap
    omega

end Sys2Proof.Machine
end

