-- ==== Sys2Proof/Laws/State.lean ====
section
/-! SUPPORT. One lemma per field per register write, so that no proof unfolds a record update. -/

namespace Sys2Proof.Machine

variable (s : State)

/-! ### `State.setTape` -/

@[simp] theorem setTape_tape (v : Memory) : (s.setTape v).tape = v := rfl
@[simp] theorem setTape_ap (v : Memory) : (s.setTape v).ap = s.ap := rfl
@[simp] theorem setTape_ip (v : Memory) : (s.setTape v).ip = s.ip := rfl
@[simp] theorem setTape_len (v : Memory) : (s.setTape v).len = s.len := rfl
@[simp] theorem setTape_prog (v : Memory) : (s.setTape v).prog = s.prog := rfl
@[simp] theorem setTape_loaded (v : Memory) : (s.setTape v).loaded = s.loaded := rfl
@[simp] theorem setTape_cause (v : Memory) : (s.setTape v).cause = s.cause := rfl
@[simp] theorem setTape_await (v : Memory) : (s.setTape v).await = s.await := rfl
@[simp] theorem setTape_input (v : Memory) : (s.setTape v).input = s.input := rfl
@[simp] theorem setTape_output (v : Memory) : (s.setTape v).output = s.output := rfl

/-! ### `State.setAp` -/

@[simp] theorem setAp_tape (v : Addr) : (s.setAp v).tape = s.tape := rfl
@[simp] theorem setAp_ap (v : Addr) : (s.setAp v).ap = v := rfl
@[simp] theorem setAp_ip (v : Addr) : (s.setAp v).ip = s.ip := rfl
@[simp] theorem setAp_len (v : Addr) : (s.setAp v).len = s.len := rfl
@[simp] theorem setAp_prog (v : Addr) : (s.setAp v).prog = s.prog := rfl
@[simp] theorem setAp_loaded (v : Addr) : (s.setAp v).loaded = s.loaded := rfl
@[simp] theorem setAp_cause (v : Addr) : (s.setAp v).cause = s.cause := rfl
@[simp] theorem setAp_await (v : Addr) : (s.setAp v).await = s.await := rfl
@[simp] theorem setAp_input (v : Addr) : (s.setAp v).input = s.input := rfl
@[simp] theorem setAp_output (v : Addr) : (s.setAp v).output = s.output := rfl

/-! ### `State.setIp` -/

@[simp] theorem setIp_tape (v : Index) : (s.setIp v).tape = s.tape := rfl
@[simp] theorem setIp_ap (v : Index) : (s.setIp v).ap = s.ap := rfl
@[simp] theorem setIp_ip (v : Index) : (s.setIp v).ip = v := rfl
@[simp] theorem setIp_len (v : Index) : (s.setIp v).len = s.len := rfl
@[simp] theorem setIp_prog (v : Index) : (s.setIp v).prog = s.prog := rfl
@[simp] theorem setIp_loaded (v : Index) : (s.setIp v).loaded = s.loaded := rfl
@[simp] theorem setIp_cause (v : Index) : (s.setIp v).cause = s.cause := rfl
@[simp] theorem setIp_await (v : Index) : (s.setIp v).await = s.await := rfl
@[simp] theorem setIp_input (v : Index) : (s.setIp v).input = s.input := rfl
@[simp] theorem setIp_output (v : Index) : (s.setIp v).output = s.output := rfl

/-! ### `State.setCause` -/

@[simp] theorem setCause_tape (v : Cause) : (s.setCause v).tape = s.tape := rfl
@[simp] theorem setCause_ap (v : Cause) : (s.setCause v).ap = s.ap := rfl
@[simp] theorem setCause_ip (v : Cause) : (s.setCause v).ip = s.ip := rfl
@[simp] theorem setCause_len (v : Cause) : (s.setCause v).len = s.len := rfl
@[simp] theorem setCause_prog (v : Cause) : (s.setCause v).prog = s.prog := rfl
@[simp] theorem setCause_loaded (v : Cause) : (s.setCause v).loaded = s.loaded := rfl
@[simp] theorem setCause_cause (v : Cause) : (s.setCause v).cause = v := rfl
@[simp] theorem setCause_await (v : Cause) : (s.setCause v).await = s.await := rfl
@[simp] theorem setCause_input (v : Cause) : (s.setCause v).input = s.input := rfl
@[simp] theorem setCause_output (v : Cause) : (s.setCause v).output = s.output := rfl

/-! ### `State.setAwait` -/

@[simp] theorem setAwait_tape (v : Bool) : (s.setAwait v).tape = s.tape := rfl
@[simp] theorem setAwait_ap (v : Bool) : (s.setAwait v).ap = s.ap := rfl
@[simp] theorem setAwait_ip (v : Bool) : (s.setAwait v).ip = s.ip := rfl
@[simp] theorem setAwait_len (v : Bool) : (s.setAwait v).len = s.len := rfl
@[simp] theorem setAwait_prog (v : Bool) : (s.setAwait v).prog = s.prog := rfl
@[simp] theorem setAwait_loaded (v : Bool) : (s.setAwait v).loaded = s.loaded := rfl
@[simp] theorem setAwait_cause (v : Bool) : (s.setAwait v).cause = s.cause := rfl
@[simp] theorem setAwait_await (v : Bool) : (s.setAwait v).await = v := rfl
@[simp] theorem setAwait_input (v : Bool) : (s.setAwait v).input = s.input := rfl
@[simp] theorem setAwait_output (v : Bool) : (s.setAwait v).output = s.output := rfl

/-! ### `State.setInput` -/

@[simp] theorem setInput_tape (v : List Byte) : (s.setInput v).tape = s.tape := rfl
@[simp] theorem setInput_ap (v : List Byte) : (s.setInput v).ap = s.ap := rfl
@[simp] theorem setInput_ip (v : List Byte) : (s.setInput v).ip = s.ip := rfl
@[simp] theorem setInput_len (v : List Byte) : (s.setInput v).len = s.len := rfl
@[simp] theorem setInput_prog (v : List Byte) : (s.setInput v).prog = s.prog := rfl
@[simp] theorem setInput_loaded (v : List Byte) : (s.setInput v).loaded = s.loaded := rfl
@[simp] theorem setInput_cause (v : List Byte) : (s.setInput v).cause = s.cause := rfl
@[simp] theorem setInput_await (v : List Byte) : (s.setInput v).await = s.await := rfl
@[simp] theorem setInput_input (v : List Byte) : (s.setInput v).input = v := rfl
@[simp] theorem setInput_output (v : List Byte) : (s.setInput v).output = s.output := rfl

/-! ### `State.setOutput` -/

@[simp] theorem setOutput_tape (v : List Byte) : (s.setOutput v).tape = s.tape := rfl
@[simp] theorem setOutput_ap (v : List Byte) : (s.setOutput v).ap = s.ap := rfl
@[simp] theorem setOutput_ip (v : List Byte) : (s.setOutput v).ip = s.ip := rfl
@[simp] theorem setOutput_len (v : List Byte) : (s.setOutput v).len = s.len := rfl
@[simp] theorem setOutput_prog (v : List Byte) : (s.setOutput v).prog = s.prog := rfl
@[simp] theorem setOutput_loaded (v : List Byte) : (s.setOutput v).loaded = s.loaded := rfl
@[simp] theorem setOutput_cause (v : List Byte) : (s.setOutput v).cause = s.cause := rfl
@[simp] theorem setOutput_await (v : List Byte) : (s.setOutput v).await = s.await := rfl
@[simp] theorem setOutput_input (v : List Byte) : (s.setOutput v).input = s.input := rfl
@[simp] theorem setOutput_output (v : List Byte) : (s.setOutput v).output = v := rfl

/-! ### `advanceIp` -/

@[simp] theorem advanceIp_tape : (advanceIp s).tape = s.tape := rfl
@[simp] theorem advanceIp_ap : (advanceIp s).ap = s.ap := rfl
@[simp] theorem advanceIp_ip : (advanceIp s).ip = s.ip + 1 := rfl
@[simp] theorem advanceIp_len : (advanceIp s).len = s.len := rfl
@[simp] theorem advanceIp_prog : (advanceIp s).prog = s.prog := rfl
@[simp] theorem advanceIp_loaded : (advanceIp s).loaded = s.loaded := rfl
@[simp] theorem advanceIp_cause : (advanceIp s).cause = s.cause := rfl
@[simp] theorem advanceIp_await : (advanceIp s).await = s.await := rfl
@[simp] theorem advanceIp_input : (advanceIp s).input = s.input := rfl
@[simp] theorem advanceIp_output : (advanceIp s).output = s.output := rfl

end Sys2Proof.Machine
end

