-- ==== Sys2Proof/Laws/Ops.lean ====
section
/-! SUPPORT. One lemma per shared operation that says everything it can do. -/

namespace Sys2Proof.Machine

variable (s : State)

/-! ### The tape -/

theorem memRead_congr {s t : State} (h : s.tape = t.tape) (a : Int) : memRead s a = memRead t a := by
  unfold memRead
  rw [h]

@[simp] theorem memRead_setAp (v : Addr) (a : Int) : memRead (s.setAp v) a = memRead s a := rfl
@[simp] theorem memRead_setIp (v : Index) (a : Int) : memRead (s.setIp v) a = memRead s a := rfl
@[simp] theorem memRead_setCause (v : Cause) (a : Int) : memRead (s.setCause v) a = memRead s a := rfl
@[simp] theorem memRead_setAwait (v : Bool) (a : Int) : memRead (s.setAwait v) a = memRead s a := rfl
@[simp] theorem memRead_setInput (v : List Byte) (a : Int) : memRead (s.setInput v) a = memRead s a := rfl
@[simp] theorem memRead_setOutput (v : List Byte) (a : Int) : memRead (s.setOutput v) a = memRead s a := rfl
@[simp] theorem memRead_advanceIp (a : Int) : memRead (advanceIp s) a = memRead s a := rfl

theorem getD_eq_of_or {o : Option Byte} {d v : Byte} (h : o.or (some d) = some v) : o.getD d = v := by
  cases o with
  | none => simpa using h
  | some w => simpa using h

/-- A read of the tape after a write of it. -/
theorem memRead_memWrite (a b : Int) (v : Byte) :
    memRead (memWrite s a v) b = if cellIndex a = cellIndex b then v else memRead s b := by
  have h := lookup_write s.tape (cellIndex a) (cellIndex b) v tapeUnlisted
  unfold memRead memWrite
  rw [setTape_tape]
  apply getD_eq_of_or
  rw [show some (tapeInit (cellIndex b)) = tapeUnlisted (cellIndex b) from rfl, h]
  split
  · rfl
  · cases Memory.lookup s.tape (cellIndex b) <;> rfl

/-- A tape write changes no other register. -/
theorem memWrite_eq (a : Int) (v : Byte) :
    memWrite s a v = s.setTape (memWrite s a v).tape := rfl

@[simp] theorem memWrite_ap (a : Int) (v : Byte) : (memWrite s a v).ap = s.ap := rfl
@[simp] theorem memWrite_ip (a : Int) (v : Byte) : (memWrite s a v).ip = s.ip := rfl
@[simp] theorem memWrite_len (a : Int) (v : Byte) : (memWrite s a v).len = s.len := rfl
@[simp] theorem memWrite_prog (a : Int) (v : Byte) : (memWrite s a v).prog = s.prog := rfl
@[simp] theorem memWrite_loaded (a : Int) (v : Byte) : (memWrite s a v).loaded = s.loaded := rfl
@[simp] theorem memWrite_cause (a : Int) (v : Byte) : (memWrite s a v).cause = s.cause := rfl
@[simp] theorem memWrite_await (a : Int) (v : Byte) : (memWrite s a v).await = s.await := rfl
@[simp] theorem memWrite_input (a : Int) (v : Byte) : (memWrite s a v).input = s.input := rfl
@[simp] theorem memWrite_output (a : Int) (v : Byte) : (memWrite s a v).output = s.output := rfl

/-- A tape write keeps the canonical form of the tape. -/
theorem memWrite_wf (a : Int) (v : Byte) (h : Memory.wf tapeUnlisted Config.tapeCap s.tape) :
    Memory.wf tapeUnlisted Config.tapeCap (memWrite s a v).tape :=
  write_wf s.tape (cellIndex a) v h (cellIndex_lt a)

theorem guardIsZero_eq_true : guardIsZero s = true ↔ memRead s (s.ap.toNat : Int) = 0 := by
  simp [guardIsZero, currentCell, currentAddr]

theorem guardIsZero_eq_false : guardIsZero s = false ↔ memRead s (s.ap.toNat : Int) ≠ 0 := by
  simp [guardIsZero, currentCell, currentAddr]

/-! ### The fetch -/

/-- Everything a fetch can answer, and when. -/
theorem fetch_cases :
    (s.ip = s.len ∧ fetch s = .halted) ∨
    (s.ip.toNat < s.len.toNat ∧ ∃ b, progRead s s.ip.toNat = some b ∧ fetch s = .byte b) ∨
    (s.ip.toNat < s.len.toNat ∧ progRead s s.ip.toNat = none ∧ fetch s = .unspecified) ∨
    (s.len.toNat < s.ip.toNat ∧ fetch s = .pastLength) := by
  unfold fetch
  by_cases heq : s.ip = s.len
  · simp [heq]
  have hne : s.ip.toNat ≠ s.len.toNat := fun h => heq (BitVec.eq_of_toNat_eq h)
  by_cases hlt : s.ip.toNat < s.len.toNat
  · cases hb : progRead s s.ip.toNat <;> simp [heq, hlt]
  · have : s.len.toNat < s.ip.toNat := by omega
    simp [heq, hlt, this]

theorem fetch_byte {b : Byte} (hlt : s.ip.toNat < s.len.toNat)
    (hb : progRead s s.ip.toNat = some b) : fetch s = .byte b := by
  have heq : s.ip ≠ s.len := fun h => by rw [h] at hlt; exact lt_irrefl _ hlt
  simp [fetch, heq, hlt, hb]

/-! ### The I/O gateway and the fatal conditions -/

/-- Everything `Input()` can answer. -/
theorem takeInput_cases :
    (s.input = [] ∧ takeInput s = none) ∨
    ∃ b rest, s.input = b :: rest ∧ takeInput s = some (b, s.setInput rest) := by
  cases h : s.input <;> simp [takeInput, h]

theorem emitOutput_eq (v : Byte) : emitOutput s v = s.setOutput (s.output ++ [v]) := rfl

theorem raiseFatal_eq (c : Cause) : raiseFatal s c = s.setCause c := rfl

/-- Placing a byte for the next fetch: that fetch answers it, and no fatal condition stands. -/
theorem placeFetchByte_fetch (b : Byte) :
    fetch (placeFetchByte s b) = .byte b ∧ (placeFetchByte s b).cause = .none := by
  refine ⟨fetch_byte _ ?_ ?_, rfl⟩
  · simp only [placeFetchByte]
    split <;> rename_i h
    · split
      · assumption
      · unfold Config.progCap at h
        bv_omega
    · split
      · assumption
      · simp
  · simp [progRead, placeFetchByte, Memory.write, progUnlisted, lookup_put]

end Sys2Proof.Machine
end

