-- ==== Sys2Proof/Laws/Step.lean ====
section
/-! SUPPORT. What each instruction and one step can do, said once. -/

namespace Sys2Proof.Machine

variable (s : State)

/-! ### One instruction -/

theorem exec_inc : exec .inc s =
    .next (advanceIp (memWrite s (s.ap.toNat : Int) (memRead s (s.ap.toNat : Int) + 1))) := rfl

theorem exec_dec : exec .dec s =
    .next (advanceIp (memWrite s (s.ap.toNat : Int) (memRead s (s.ap.toNat : Int) + 255))) := rfl

theorem exec_right : exec .right s = .next (advanceIp (s.setAp (s.ap + 1))) := rfl

theorem exec_left : exec .left s = .next (advanceIp (s.setAp (s.ap - 1))) := rfl

theorem exec_out : exec .out s =
    .next (advanceIp (s.setOutput (s.output ++ [memRead s (s.ap.toNat : Int)]))) := rfl

theorem exec_inp_nil (h : s.input = []) : exec .inp s = .next (s.setAwait true) := by
  simp [exec, execIn, takeInput, h]

theorem exec_inp_cons {b : Byte} {rest : List Byte} (h : s.input = b :: rest) :
    exec .inp s = .next (advanceIp ((memWrite (s.setInput rest) (s.ap.toNat : Int) b).setAwait false)) := by
  simp [exec, execIn, takeInput, h, storeCurrentCell, currentAddr]

theorem exec_jz_zero (h : memRead s (s.ap.toNat : Int) = 0) :
    exec .jz s = jumpByScan s (scanForward s) := by
  simp [exec, execJz, (guardIsZero_eq_true s).2 h]

theorem exec_jz_nonzero (h : memRead s (s.ap.toNat : Int) ≠ 0) :
    exec .jz s = .next (advanceIp s) := by
  simp [exec, execJz, (guardIsZero_eq_false s).2 h]

theorem exec_jnz_nonzero (h : memRead s (s.ap.toNat : Int) ≠ 0) :
    exec .jnz s = jumpByScan s (scanBackward s) := by
  simp [exec, execJnz, (guardIsZero_eq_false s).2 h]

theorem exec_jnz_zero (h : memRead s (s.ap.toNat : Int) = 0) :
    exec .jnz s = .next (advanceIp s) := by
  simp [exec, execJnz, (guardIsZero_eq_true s).2 h]

theorem exec_nop (b : Byte) : exec (.nop b) s = .next (advanceIp s) := rfl

/-- Everything a taken jump can do when it answers a next state. -/
theorem jumpByScan_cases {s t : State} {r : Scan} (h : jumpByScan s r = .next t) :
    (∃ q, r = .found q ∧ t = s.setIp q) ∨ (r = .unbalanced ∧ t = s.setCause .unbalancedBracket) := by
  cases r with
  | found q => cases h; exact .inl ⟨q, rfl, rfl⟩
  | unbalanced => cases h; exact .inr ⟨rfl, rfl⟩
  | unspecified => cases h

/-- Everything an instruction can do when it answers a next state. -/
theorem exec_cases {i : Instr} {s t : State} (h : exec i s = .next t) :
    (∃ v, (i = .inc ∨ i = .dec) ∧ t = advanceIp (memWrite s (s.ap.toNat : Int) v)) ∨
    (∃ v, (i = .right ∨ i = .left) ∧ t = advanceIp (s.setAp v)) ∨
    (i = .out ∧ t = advanceIp (s.setOutput (s.output ++ [memRead s (s.ap.toNat : Int)]))) ∨
    (i = .inp ∧ s.input = [] ∧ t = s.setAwait true) ∨
    (∃ b rest, i = .inp ∧ s.input = b :: rest ∧
      t = advanceIp ((memWrite (s.setInput rest) (s.ap.toNat : Int) b).setAwait false)) ∨
    (∃ q, i = .jz ∧ memRead s (s.ap.toNat : Int) = 0 ∧ scanForward s = .found q ∧ t = s.setIp q) ∨
    (∃ q, i = .jnz ∧ memRead s (s.ap.toNat : Int) ≠ 0 ∧ scanBackward s = .found q ∧ t = s.setIp q) ∨
    (i = .jz ∧ memRead s (s.ap.toNat : Int) = 0 ∧ scanForward s = .unbalanced ∧
      t = s.setCause .unbalancedBracket) ∨
    (i = .jnz ∧ memRead s (s.ap.toNat : Int) ≠ 0 ∧ scanBackward s = .unbalanced ∧
      t = s.setCause .unbalancedBracket) ∨
    (((i = .jz ∧ memRead s (s.ap.toNat : Int) ≠ 0) ∨ (i = .jnz ∧ memRead s (s.ap.toNat : Int) = 0) ∨
      ∃ b, i = .nop b) ∧ t = advanceIp s) := by
  cases i with
  | inc => cases h; exact .inl ⟨_, .inl rfl, rfl⟩
  | dec => cases h; exact .inl ⟨_, .inr rfl, rfl⟩
  | right => cases h; exact .inr (.inl ⟨_, .inl rfl, rfl⟩)
  | left => cases h; exact .inr (.inl ⟨_, .inr rfl, rfl⟩)
  | out => cases h; exact .inr (.inr (.inl ⟨rfl, rfl⟩))
  | inp =>
    cases hin : s.input with
    | nil => rw [exec_inp_nil s hin] at h; cases h; simp
    | cons b rest => rw [exec_inp_cons s hin] at h; cases h; simp
  | jz =>
    by_cases hz : memRead s (s.ap.toNat : Int) = 0
    · rw [exec_jz_zero s hz] at h
      rcases jumpByScan_cases h with ⟨q, hq, rfl⟩ | ⟨hq, rfl⟩ <;> simp [hz, hq]
    · rw [exec_jz_nonzero s hz] at h; cases h; simp_all
  | jnz =>
    by_cases hz : memRead s (s.ap.toNat : Int) = 0
    · rw [exec_jnz_zero s hz] at h; cases h; simp [hz]
    · rw [exec_jnz_nonzero s hz] at h
      rcases jumpByScan_cases h with ⟨q, hq, rfl⟩ | ⟨hq, rfl⟩ <;> simp_all
  | nop b => cases h; simp

/-! ### One step -/

theorem stepAction_run {s : State} {b : Byte} (hc : s.cause = .none) (hlt : s.ip.toNat < s.len.toNat)
    (hb : progRead s s.ip.toNat = some b) : stepAction s = .run (decode b) := by
  simp [stepAction, hc, fetch_byte s hlt hb]

/-- Everything a step can do when it answers a next state: nothing, or the decoded instruction. -/
theorem step_cases {s t : State} (h : step s = .next t) :
    (t = s ∧ (s.cause ≠ .none ∨ s.ip = s.len)) ∨
    (s.cause = .none ∧ s.ip.toNat < s.len.toNat ∧
      ∃ b, progRead s s.ip.toNat = some b ∧ exec (decode b) s = .next t) := by
  unfold step stepAction at h
  by_cases hc : s.cause = .none
  · rcases fetch_cases s with ⟨heq, hf⟩ | ⟨hlt, b, hb, hf⟩ | ⟨-, -, hf⟩ | ⟨-, hf⟩ <;>
      simp only [hc, hf, ne_eq, not_true_eq_false, if_false] at h
    · cases h; exact .inl ⟨rfl, .inr heq⟩
    · exact .inr ⟨hc, hlt, b, hb, h⟩
    · cases h
    · cases h
  · simp only [hc, ne_eq, not_false_eq_true, if_true] at h
    cases h
    exact .inl ⟨rfl, .inl hc⟩

/-- The step after `withFetchWord` runs exactly the placed instruction. -/
theorem step_withFetchWord (nbits w : Nat) :
    step (s.withFetchWord nbits w) =
      exec (decode (BitVec.ofNat 8 (w % 2 ^ nbits))) (s.withFetchWord nbits w) := by
  obtain ⟨hf, hc⟩ := placeFetchByte_fetch s (BitVec.ofNat 8 (w % 2 ^ nbits))
  simp [step, stepAction, State.withFetchWord, hf, hc]

end Sys2Proof.Machine
end

