-- ==== Sys2Proof/Laws/Host.lean ====
section
/-! SUPPORT. What the host operations beside STEP do. -/

namespace Sys2Proof.Machine

variable (s : State)

/-- Everything a LOAD can do when it answers a next state. -/
theorem load_cases {bytes : List Byte} {s t : State} (h : load bytes s = .next t) :
    s.loaded = false ∧
    ((bytes.length ≤ 65536 ∧
        t = { s with prog := programCells 0 bytes, len := BitVec.ofNat 17 bytes.length, ip := 0, loaded := true }) ∨
      (65536 < bytes.length ∧
        t = { s with len := 0, ip := 0, loaded := true, cause := .capacityExceeded })) := by
  unfold load at h
  split at h
  · cases h
  · rename_i hl
    refine ⟨by simpa using hl, ?_⟩
    split at h <;> rename_i hn
    · cases h; exact .inl ⟨hn, rfl⟩
    · cases h; exact .inr ⟨not_le.1 hn, rfl⟩

@[simp] theorem hostOp_reset : hostOp .reset s = .next (resetOp s) := rfl
@[simp] theorem hostOp_load (bytes : List Byte) : hostOp (.load bytes) s = load bytes s := rfl
@[simp] theorem hostOp_step : hostOp .step s = step s := rfl
@[simp] theorem hostOp_offer (b : Byte) : hostOp (.offer b) s = .next (offerInput b s) := rfl
@[simp] theorem hostOp_query (q : Query) : hostOp (.query q) s = .next s := rfl

/-- The loaded store reads back byte for byte. -/
theorem progRead_programCells (bytes : List Byte) (i : Nat) :
    progRead { s with prog := programCells 0 bytes } i = bytes[i]? := by
  simp [progRead, lookup_programCells]

/-! ### Runs of steps -/

theorem core_run_zero : Host.Core.run Sys2Proof.core 0 s = .next s := rfl

theorem run_succ_of_next (M : Host.Core) {s s' : M.State} (n : Nat) (h : M.step s = .next s') :
    M.run (n + 1) s = M.run n s' := by
  rw [Host.Core.run, h]

/-- One more step, in the model's own names. -/
theorem core_run_succ {s s' : State} (n : Nat) (h : step s = .next s') :
    Host.Core.run Sys2Proof.core (n + 1) s = Host.Core.run Sys2Proof.core n s' :=
  run_succ_of_next Sys2Proof.core n h

end Sys2Proof.Machine
end

