-- ==== Sys2Proof/Laws/PerInstr.lean ====
section
/-! SUPPORT. A law of every instruction as syntax, made instruction by instruction. -/

namespace Sys2Proof.Laws.OpcodeRange

/-- Rule R71 (30_encoding.md): every instruction byte has bit 7 = 0 and lies in 0x2B to 0x5D; only
commentary lies elsewhere. -/
def Statement (i : Instr) : Prop :=
  (∃ b, i = .nop b) ∨ (0x2B ≤ (encode i).toNat ∧ (encode i).toNat ≤ 0x5D ∧ (encode i).getLsbD 7 = false)

theorem inc : Statement .inc := .inr (by decide)
theorem dec : Statement .dec := .inr (by decide)
theorem right : Statement .right := .inr (by decide)
theorem left : Statement .left := .inr (by decide)
theorem out : Statement .out := .inr (by decide)
theorem inp : Statement .inp := .inr (by decide)
theorem jz : Statement .jz := .inr (by decide)
theorem jnz : Statement .jnz := .inr (by decide)
theorem nop (b : Byte) : Statement (.nop b) := .inl ⟨b, rfl⟩

end Sys2Proof.Laws.OpcodeRange
end

