-- ==== Sys2Proof/Tests/Slice0.lean ====
section
/-! SUPPORT. Tests: well-formedness, decoding of words written out from the spec, single steps with the results of
95_test_vectors.md, and a witness for the hypotheses of every statement that has some. -/

namespace Sys2Proof.Tests

open Sys2Proof.Machine

/-- The state after RESET and a LOAD of the bytes. -/
def loadedWith (bs : List Byte) : State :=
  { State.reset with prog := programCells 0 bs, len := BitVec.ofNat 17 bs.length, loaded := true }

/-- The next state an outcome answers, if it does. -/
def nextOf : Host.Outcome State Fault Refusal → Option State
  | .next s => some s
  | _ => none

/-- One number read from the state after one step. -/
def afterStep (s : State) (f : State → Nat) : Option Nat := (nextOf (step s)).map f

/-! ### Well-formedness -/

theorem test_wf_refuses_nop_of_plus : (Instr.nop 0x2B).wf = false := by decide
theorem test_wf_refuses_nop_of_close : (Instr.nop 0x5D).wf = false := by decide
theorem test_wf_accepts_nop_between_brackets : (Instr.nop 0x5C).wf = true := by decide

/-! ### Decoding, words written out from the table of R66 -/

theorem test_decode_inc : decode 0b00101011 = .inc := by decide
theorem test_decode_dec : decode 0b00101101 = .dec := by decide
theorem test_decode_right : decode 0b00111110 = .right := by decide
theorem test_decode_left : decode 0b00111100 = .left := by decide
theorem test_decode_out : decode 0b00101100 = .out := by decide
theorem test_decode_inp : decode 0b00101110 = .inp := by decide
theorem test_decode_jz : decode 0b01011011 = .jz := by decide
theorem test_decode_jnz : decode 0b01011101 = .jnz := by decide
theorem test_decode_nop : decode 0b01011100 = .nop 0x5C := by decide
theorem test_decode_nop_zero : decode 0b00000000 = .nop 0 := by decide

/-! ### One step, expected results from 95_test_vectors.md -/

/-- T1. -/
theorem test_inc_first_cell :
    afterStep (loadedWith [0x2B]) (fun t => (readPort 0 t).toNat) = some 1 := by decide
/-- S1: 255 + 1 is 0. -/
theorem test_inc_wraps :
    afterStep { loadedWith [0x2B] with tape := [(0, 0xFF)] } (fun t => (readPort 0 t).toNat) = some 0 := by
  decide
/-- T3: 0 - 1 is 255. -/
theorem test_dec_wraps :
    afterStep (loadedWith [0x2D]) (fun t => (readPort 0 t).toNat) = some 255 := by decide
/-- T6: from 65535 to 0. -/
theorem test_right_wraps :
    afterStep { loadedWith [0x3E] with ap := 65535 } (fun t => t.ap.toNat) = some 0 := by decide
/-- T7: from 0 to 65535, whose cell holds 63. -/
theorem test_left_wraps :
    afterStep (loadedWith [0x3C]) (fun t => t.ap.toNat) = some 65535 ∧
    afterStep (loadedWith [0x3C]) (fun t => (readPort 65535 t).toNat) = some 63 := by decide
/-- IO2, first step: AP = 3 outputs 3. -/
theorem test_out_emits_cell :
    (nextOf (step { loadedWith [0x2C, 0x2C] with ap := 3 })).map State.output = some [0x03] := by decide
/-- IO7: input 0xFF into cell 5. -/
theorem test_inp_stores_byte :
    afterStep { loadedWith [0x2E] with ap := 5, input := [0xFF] } (fun t => (readPort 5 t).toNat) = some 255 := by
  decide
/-- IO4: no byte, STATUS 0x32. -/
theorem test_inp_waits :
    afterStep (loadedWith [0x2E]) (fun t => (statusPort t).toNat) = some 0x32 := by decide
/-- P3, step 1: the nested forward scan of `[+[+]+]-` goes from IP 0 to IP 7. -/
theorem test_jz_skips_nested :
    afterStep (loadedWith [0x5B, 0x2B, 0x5B, 0x2B, 0x5D, 0x2B, 0x5D, 0x2D]) (fun t => t.ip.toNat) = some 7 := by
  decide
/-- S9: `[` alone, STATUS 0x2B. -/
theorem test_jz_unbalanced :
    afterStep (loadedWith [0x5B]) (fun t => (statusPort t).toNat) = some 0x2B := by decide
/-- L6: the nested backward scan of `[[-]]` from IP 4 goes to IP 1. -/
theorem test_jnz_skips_nested :
    afterStep { loadedWith [0x5B, 0x5B, 0x2D, 0x5D, 0x5D] with ap := 1, ip := 4 } (fun t => t.ip.toNat) =
      some 1 := by decide
/-- L11: `]` alone with a nonzero cell, STATUS 0x2B. -/
theorem test_jnz_unbalanced :
    afterStep { loadedWith [0x5D] with ap := 1 } (fun t => (statusPort t).toNat) = some 0x2B := by decide
/-- X1: the byte 0x00 halts a one-byte program, STATUS 0x21. -/
theorem test_nop_halts :
    afterStep (loadedWith [0x00]) (fun t => (statusPort t).toNat) = some 0x21 := by decide
/-- H1: a step before any LOAD changes nothing. -/
theorem test_step_before_load : step State.reset = .next State.reset := by rfl
/-- RD5 and RD7: the read ranges across the wrap. -/
theorem test_read_range :
    readRange 65534 65537 State.reset = [62, 63, 0, 1] ∧ readRange (-2) 1 State.reset = [62, 63, 0, 1] := by
  decide
/-- An instruction placed after reset runs in the next step. -/
theorem test_with_fetch_word :
    afterStep (State.reset.withFetchWord 8 0x2B) (fun t => (readPort 0 t).toNat) = some 1 := by decide

/-! ### Witnesses: concrete values that meet the hypotheses of a statement -/

theorem witness_DecodeEncodeRoundTrip : (Instr.nop 0xFF).wf = true := by decide
theorem witness_DecodeTable :
    (0x5C : Byte) ∉ ([0x2B, 0x2D, 0x3E, 0x3C, 0x2C, 0x2E, 0x5B, 0x5D] : List Byte) := by decide
theorem witness_IncrementInstruction :
    (loadedWith [0x2B]).cause = .none ∧ (loadedWith [0x2B]).await = false ∧
    (loadedWith [0x2B]).ip + 1 = (loadedWith [0x2B]).len ∧ (65535 : Int) % 65536 ≠ currentAddr (loadedWith [0x2B]) := by
  decide
theorem witness_DecrementInstruction : (-1 : Int) % 65536 ≠ currentAddr State.reset := by decide
theorem witness_InputInstruction :
    (loadedWith [0x2E]).input = [] ∧ { loadedWith [0x2E] with input := [0xFF] }.input = 0xFF :: [] ∧
    (65536 - 1 : Int) % 65536 ≠ currentAddr (loadedWith [0x2E]) := by decide

/-- `[]` at IP 0 with the cell 0: the match is the last byte. -/
theorem witness_LoopBeginInstruction_match :
    memRead (loadedWith [0x5B, 0x5D]) (currentAddr (loadedWith [0x5B, 0x5D])) = 0 ∧
    HoldsProgram (loadedWith [0x5B, 0x5D]) [0x5B, 0x5D] ∧
    ([0x5B, 0x5D] : List Byte)[(loadedWith [0x5B, 0x5D]).ip.toNat]? = some openByte ∧
    Matches [0x5B, 0x5D] (loadedWith [0x5B, 0x5D]).ip.toNat 1 := by
  unfold HoldsProgram Matches BracketsBalanced; decide
/-- `[` alone at IP 0 with the cell 0: the scan starts at LEN. -/
theorem witness_LoopBeginInstruction_unmatched :
    memRead (loadedWith [0x5B]) (currentAddr (loadedWith [0x5B])) = 0 ∧
    HoldsProgram (loadedWith [0x5B]) [0x5B] ∧
    ([0x5B] : List Byte)[(loadedWith [0x5B]).ip.toNat]? = some openByte ∧
    ¬ ∃ k, Matches [0x5B] (loadedWith [0x5B]).ip.toNat k := by
  refine ⟨by decide, by unfold HoldsProgram; decide, by decide, ?_⟩
  rintro ⟨k, hk, -, hc, -⟩
  have hk : 1 ≤ k := hk
  rw [List.getElem?_eq_none hk] at hc
  cases hc
theorem witness_LoopBeginInstruction_nonzero :
    memRead { State.reset with ap := 1 } (currentAddr { State.reset with ap := 1 }) ≠ 0 := by decide

/-- `[]` at IP 1 with the cell 63. -/
def loopEnd : State := { loadedWith [0x5B, 0x5D] with ap := 65535, ip := 1 }

/-- `]` alone with the cell 1. -/
def closeAlone : State := { loadedWith [0x5D] with ap := 1 }

/-- `[` alone with the cell 1. -/
def openNonzero : State := { loadedWith [0x5B] with ap := 1 }

/-- `a+` at its last byte. -/
def lastByte : State := { loadedWith [0x61, 0x2B] with ip := 1 }

/-- `+` at its end. -/
def atEnd : State := { loadedWith [0x2B] with ip := 1 }

/-- The match is the first byte. -/
theorem witness_LoopEndInstruction_match :
    memRead loopEnd (currentAddr loopEnd) ≠ 0 ∧ HoldsProgram loopEnd [0x5B, 0x5D] ∧
    ([0x5B, 0x5D] : List Byte)[loopEnd.ip.toNat]? = some closeByte ∧
    Matches [0x5B, 0x5D] 0 loopEnd.ip.toNat := by
  unfold HoldsProgram Matches BracketsBalanced; decide
theorem witness_LoopEndInstruction_unmatched :
    memRead closeAlone (currentAddr closeAlone) ≠ 0 ∧ HoldsProgram closeAlone [0x5D] ∧
    ([0x5D] : List Byte)[closeAlone.ip.toNat]? = some closeByte ∧
    ¬ ∃ j, Matches [0x5D] j closeAlone.ip.toNat := by
  refine ⟨by decide, by unfold HoldsProgram; decide, by decide, ?_⟩
  rintro ⟨j, hj, -⟩
  exact Nat.not_lt_zero j hj
theorem witness_LoopEndInstruction_zero : memRead State.reset (currentAddr State.reset) = 0 := by decide
theorem witness_CommentaryInstruction :
    (0x5C : Byte) ∉ ([0x2B, 0x2C, 0x2D, 0x2E, 0x3C, 0x3E, 0x5B, 0x5D] : List Byte) := by decide
theorem witness_TapeInstructionInverses :
    { State.reset with tape := [(0, 255), (65535, 0)] }.Canonical := by decide

/-- IP at LEN - 1, the last position dispatched. -/
theorem witness_StepRunsDecodedInstruction :
    lastByte.cause = .none ∧ lastByte.ip.toNat < lastByte.len.toNat ∧
    progRead lastByte lastByte.ip.toNat = some (encode .inc) ∧ Instr.inc.wf = true := by decide
theorem witness_FetchAnswersByteOrHalted :
    (lastByte.ip.toNat < lastByte.len.toNat ∧ progRead lastByte lastByte.ip.toNat = some 0x2B) ∧
    atEnd.ip.toNat = atEnd.len.toNat := by decide
theorem witness_HaltedStepChangesNothing : atEnd.cause = .none ∧ atEnd.ip = atEnd.len := by decide

/-- The program `[` after its step: FAULT with CAUSE 2. -/
def faulted : State := { loadedWith [0x5B] with cause := .unbalancedBracket }

theorem witness_EndedRunNeverChanges : Ended State.reset ∧ Ended faulted := by decide
theorem witness_FatalConditionIsSticky :
    faulted.Inv ∧ faulted.cause ≠ .none ∧ HostOp.offer 0 ≠ .reset ∧
    hostOp (.offer 0) faulted = .next { faulted with input := [0] } := ⟨by decide, by decide, by decide, rfl⟩
theorem witness_StepCompletesOnInvariantStates : (loadedWith [0x5B, 0x5D]).Inv := by decide
theorem witness_StepKeepsInvariant :
    (loadedWith [0x5B]).Inv ∧ step (loadedWith [0x5B]) = .next faulted := ⟨by decide, rfl⟩
theorem witness_HostOperationsKeepInvariant :
    HostOp.load [0x2B] ≠ .step ∧ State.reset.Inv ∧
    hostOp (.load [0x2B]) State.reset = .next (loadedWith [0x2B]) := ⟨by decide, by decide, rfl⟩

/-- The waiting state of IO4. -/
def waiting : State := { loadedWith [0x2E] with await := true }

theorem witness_StepperTransitionTable :
    ((loadedWith [0x2E]).Inv ∧ runState (loadedWith [0x2E]) = .running ∧
      step (loadedWith [0x2E]) = .next waiting) ∧
    (waiting.Inv ∧ runState waiting = .awaitingInput ∧ waiting.input = [] ∧ step waiting = .next waiting) ∧
    ({ waiting with input := [0] }.Inv ∧ runState { waiting with input := [0] } = .awaitingInput ∧
      { waiting with input := [0] }.input ≠ []) ∧
    (State.reset.Inv ∧ runState State.reset = .halted ∧ step State.reset = .next State.reset) ∧
    (faulted.Inv ∧ runState faulted = .fault ∧ step faulted = .next faulted) ∧
    hostOp (.load []) State.reset = .next (loadedWith []) :=
  ⟨⟨by decide, by decide, rfl⟩, ⟨by decide, by decide, by decide, rfl⟩, by decide,
    ⟨by decide, by decide, rfl⟩, ⟨by decide, by decide, rfl⟩, rfl⟩

/-- The two rows RUNNING to FAULT: `[` alone with the cell 0, and `]` alone with the cell 1. -/
theorem witness_StepperTransitionTable_fault :
    ((loadedWith [0x5B]).Inv ∧ runState (loadedWith [0x5B]) = .running ∧
      step (loadedWith [0x5B]) = .next faulted ∧
      memRead (loadedWith [0x5B]) (currentAddr (loadedWith [0x5B])) = 0 ∧
      scanForward (loadedWith [0x5B]) = .unbalanced) ∧
    ∃ t, closeAlone.Inv ∧ runState closeAlone = .running ∧ step closeAlone = .next t ∧
      memRead closeAlone (currentAddr closeAlone) ≠ 0 ∧ scanBackward closeAlone = .unbalanced :=
  ⟨⟨by decide, by decide, rfl, by decide, by decide⟩, _, by decide, by decide, rfl, by decide, by decide⟩

/-- The state after a LOAD that exceeds the capacity. -/
def overfull : State := { State.reset with loaded := true, cause := .capacityExceeded }

theorem load_replicate_overfull : load (List.replicate 65537 0x2B) State.reset = .next overfull := by
  unfold load
  rw [if_neg (by decide), if_neg (by rw [List.length_replicate]; decide)]
  rfl

theorem witness_StepperTransitionTable_overfull :
    State.reset.Inv ∧ hostOp (.load (List.replicate 65537 0x2B)) State.reset = .next overfull ∧
    65536 < (List.replicate 65537 (0x2B : Byte)).length :=
  ⟨by decide, load_replicate_overfull, by rw [List.length_replicate]; decide⟩

theorem witness_OnlyBracketsAndLoadRaise :
    (step (loadedWith [0x5B]) = .next faulted ∧ faulted.cause ≠ (loadedWith [0x5B]).cause) ∧
    hostOp (.load (List.replicate 65537 0x2B)) State.reset = .next overfull ∧
    overfull.cause = .capacityExceeded ∧ State.reset.cause ≠ .capacityExceeded :=
  ⟨⟨rfl, by decide⟩, load_replicate_overfull, by decide, by decide⟩
theorem witness_UnbalancedBracketIsPrecise :
    step (loadedWith [0x5B]) = .next faulted ∧ (loadedWith [0x5B]).cause = .none ∧
    faulted.cause = .unbalancedBracket := ⟨rfl, by decide, by decide⟩
/-- `[` with the cell not 0 at LEN - 1: the new IP is LEN. -/
theorem witness_SequentialAdvance :
    openNonzero.cause = .none ∧ openNonzero.ip.toNat < openNonzero.len.toNat ∧
    progRead openNonzero openNonzero.ip.toNat = some 0x5B ∧
    ¬ ((0x5B : Byte) = 0x5B ∧ memRead openNonzero (currentAddr openNonzero) = 0) ∧
    ¬ ((0x5B : Byte) = 0x5D ∧ memRead openNonzero (currentAddr openNonzero) ≠ 0) ∧
    ¬ ((0x5B : Byte) = 0x2E ∧ openNonzero.input = []) := by decide
theorem witness_JumpTargetsStayInProgram_open :
    ∃ t, (loadedWith [0x5B, 0x5D]).cause = .none ∧
      (loadedWith [0x5B, 0x5D]).ip.toNat < (loadedWith [0x5B, 0x5D]).len.toNat ∧
      step (loadedWith [0x5B, 0x5D]) = .next t ∧ t.cause = .none ∧
      progRead (loadedWith [0x5B, 0x5D]) (loadedWith [0x5B, 0x5D]).ip.toNat = some 0x5B ∧
      memRead (loadedWith [0x5B, 0x5D]) (currentAddr (loadedWith [0x5B, 0x5D])) = 0 :=
  ⟨_, by decide, by decide, rfl, by decide⟩
theorem witness_JumpTargetsStayInProgram_close :
    ∃ t, loopEnd.cause = .none ∧ loopEnd.ip.toNat < loopEnd.len.toNat ∧ step loopEnd = .next t ∧
      t.cause = .none ∧ progRead loopEnd loopEnd.ip.toNat = some 0x5D ∧
      memRead loopEnd (currentAddr loopEnd) ≠ 0 :=
  ⟨_, by decide, by decide, rfl, by decide⟩
theorem witness_HaltingRule :
    (∃ t, (loadedWith [0x5B, 0x5D]).Inv ∧ runState (loadedWith [0x5B, 0x5D]) ≠ .halted ∧
      step (loadedWith [0x5B, 0x5D]) = .next t ∧ runState t = .halted) ∧
    (loadedWith []).loaded = true ∧ runState (loadedWith []) = .halted ∧ HostOp.step ≠ .reset ∧
    hostOp .step (loadedWith []) = .next (loadedWith []) :=
  ⟨⟨_, by decide, by decide, rfl, by decide⟩, by decide, by decide, by decide, rfl⟩
theorem witness_AddressPointerWriters :
    ∃ t, hostOp .step (loadedWith [0x3C]) = .next t ∧ t.ap ≠ (loadedWith [0x3C]).ap := ⟨_, rfl, by decide⟩
theorem witness_TapeResetAndWriters :
    65535 < 65536 ∧ ∃ t, hostOp .step (loadedWith [0x2D]) = .next t ∧ HostOp.step ≠ .reset ∧
      t.tape ≠ (loadedWith [0x2D]).tape ∧ (-1 : Int) % 65536 ≠ currentAddr (loadedWith [0x2D]) :=
  ⟨by decide, _, rfl, by decide⟩
theorem witness_ProgramStoreImmutable :
    (∃ t, exec .inc State.reset = .next t) ∧ ∃ t, hostOp .step (loadedWith [0x2B]) = .next t ∧
      (loadedWith [0x2B]).loaded = true ∧ HostOp.step ≠ .reset := ⟨⟨_, rfl⟩, _, rfl, by decide⟩
theorem witness_GatewayWriters :
    (∃ t, hostOp .step (loadedWith [0x2C]) = .next t ∧ t.output ≠ (loadedWith [0x2C]).output) ∧
    (∃ t, hostOp .step { loadedWith [0x2E] with input := [7] } = .next t ∧ t.input ≠ [7]) ∧
    ∃ t, hostOp (.offer 7) State.reset = .next t ∧ t.input ≠ State.reset.input :=
  ⟨⟨_, rfl, by decide⟩, ⟨_, rfl, by decide⟩, _, rfl, by decide⟩
theorem witness_InputOutputOrder :
    ∃ t, hostRun [.reset, .load [0x2E, 0x2C], .offer 7, .step, .step] State.reset = .next t ∧
      t.output = [7] := ⟨_, rfl, by decide⟩
theorem witness_ControllerIncrementDecrement : (-1 : Int) % 65536 ≠ 65536 % 65536 := by decide
theorem witness_CanonicalTapeIsUnique :
    { State.reset with tape := [(65535, 0)] }.Canonical ∧
    { loadedWith [0x2B] with tape := [(65535, 0)] }.Canonical ∧
    ∀ a : Int, memRead { State.reset with tape := [(65535, 0)] } a =
      memRead { loadedWith [0x2B] with tape := [(65535, 0)] } a :=
  ⟨by decide, by decide, fun _ => rfl⟩
theorem witness_ReadRangeEntries :
    ((-1 : Int) ≤ -1 ∧ ((0 : Nat) : Int) ≤ -1 - -1) ∧ (4 : Int) < 5 := by decide
theorem witness_ResetState : 65535 < 65536 := by decide
theorem witness_LoadSucceeds :
    State.reset.loaded = false ∧ (List.replicate 65536 (0x2B : Byte)).length ≤ 65536 ∧
    ([] : List Byte).length ≤ 65536 ∧ State.reset.cause = .none ∧ State.reset.await = false :=
  ⟨by decide, by rw [List.length_replicate], by decide, by decide, by decide⟩
theorem witness_LoadExceedsCapacity :
    State.reset.loaded = false ∧ 65536 < (List.replicate 65537 (0x2B : Byte)).length :=
  ⟨by decide, by rw [List.length_replicate]; decide⟩
theorem witness_SecondLoadRefused : (loadedWith []).loaded = true := by decide
theorem witness_BootRunsFirstByte : ((0x2B : Byte) :: []).length ≤ 65536 := by decide
theorem witness_ForwardScanLoop :
    (loadedWith [0x5B, 0x5D]).len.toNat ≤ 2 ∧ 1 < (loadedWith [0x5B, 0x5D]).len.toNat ∧
    progRead (loadedWith [0x5B, 0x5D]) 1 = some 0x5D := by decide
theorem witness_BackwardScanLoop : progRead (loadedWith [0x5B, 0x5D]) 0 = some 0x5B := by decide
/-- The widest program, at its last position. -/
theorem witness_RegisterScannerAgrees :
    ({ State.reset with len := 65536, ip := 65535 } : State).len.toNat ≤ 65536 ∧
    ({ State.reset with len := 65536, ip := 65535 } : State).ip.toNat <
      ({ State.reset with len := 65536, ip := 65535 } : State).len.toNat := by decide
theorem witness_BracketSymmetry :
    BracketsBalanced [0x5B, 0x5D] ∧ ([0x5B, 0x5D] : List Byte)[0]? = some openByte ∧
    ([0x5B, 0x5D] : List Byte)[1]? = some closeByte ∧ HoldsProgram (loadedWith [0x5B, 0x5D]) [0x5B, 0x5D] ∧
    Matches [0x5B, 0x5D] 0 1 ∧ (loadedWith [0x5B, 0x5D]).ip.toNat = 0 ∧
    ({ loadedWith [0x5B, 0x5D] with ip := 1 } : State).ip.toNat = 1 := by
  unfold BracketsBalanced HoldsProgram Matches BracketsBalanced; decide
theorem witness_BalancedProgramNeverFaults :
    HoldsProgram (loadedWith [0x5B, 0x5D]) [0x5B, 0x5D] ∧ BracketsBalanced [0x5B, 0x5D] ∧
    (loadedWith [0x5B, 0x5D]).cause = .none ∧
    (loadedWith [0x5B, 0x5D]).ip.toNat ≤ (loadedWith [0x5B, 0x5D]).len.toNat := by
  unfold BracketsBalanced HoldsProgram; decide
theorem witness_ScanWritesOnlyIpOrCause :
    (Instr.jz = .jz ∨ Instr.jz = .jnz) ∧ exec .jz (loadedWith [0x5B]) = .next faulted := ⟨by decide, rfl⟩
theorem witness_DeletingWaitsGivesBlockingRun :
    StepsAndOffers [.step, .offer 7, .step] ∧
    ∃ t, hostRun [.step, .offer 7, .step] (loadedWith [0x2E]) = .next t ∧ t.tape = [(0, 7)] := by
  refine ⟨?_, _, rfl, by decide⟩
  intro o ho
  simp only [List.mem_cons, List.not_mem_nil, or_false] at ho
  rcases ho with rfl | rfl | rfl
  · exact .inl rfl
  · exact .inr ⟨7, rfl⟩
  · exact .inl rfl

end Sys2Proof.Tests
end

section
/-! PROOFS. The reset state, and which operations write the tape (10_state.md rules R16 and R35). -/

namespace Sys2Proof.Machine

/-! ### Bytes and their instructions -/

/-- A decoded instruction determines its byte (30_encoding.md rule R67). -/
@[simp] theorem encode_decode (b : Byte) : encode (decode b) = b := by
  unfold decode
  split_ifs <;> simp only [encode, *]

theorem eq_encode_of_decode_eq {b : Byte} {i : Instr} (h : decode b = i) : b = encode i := by
  rw [← h, encode_decode]

/-! ### The tape at reset -/

@[simp] theorem resetOp_tape (s : State) : (resetOp s).tape = State.reset.tape := rfl

theorem memRead_reset (a : Int) : memRead State.reset a = tapeInit (cellIndex a) := rfl

theorem toNat_tapeInit (i : Nat) : (tapeInit i).toNat = i % 64 := by
  simp only [tapeInit, BitVec.toNat_ofNat]
  omega

theorem cellIndex_of_lt {i : Nat} (hi : i < 65536) : cellIndex (i : Int) = i := by
  unfold cellIndex Config.tapeCap
  omega

/-- Rule R16: the reset pattern of the tape. -/
theorem memRead_reset_toNat {i : Nat} (hi : i < 65536) :
    (memRead State.reset (i : Int)).toNat = i % 64 := by
  rw [memRead_reset, cellIndex_of_lt hi, toNat_tapeInit]

/-! ### The writers of the tape -/

/-- Every cell but the current one reads the same in both states. -/
def KeepsOtherCells (s t : State) : Prop :=
  ∀ a : Int, a % 65536 ≠ currentAddr s → memRead t a = memRead s a

theorem currentAddr_emod (s : State) : currentAddr s % 65536 = currentAddr s := by
  have := s.ap.isLt
  unfold currentAddr
  omega

theorem memWrite_keepsOtherCells (s : State) (v : Byte) :
    KeepsOtherCells s (memWrite s (currentAddr s) v) := by
  intro a ha
  have hne : cellIndex (currentAddr s) ≠ cellIndex a := by
    rw [Ne, cellIndex_eq_iff, currentAddr_emod]
    exact Ne.symm ha
  rw [memRead_memWrite, if_neg hne]

/-- An instruction keeps the tape, or is `+`, `-` or `.` and keeps every cell but the current one. -/
theorem exec_tape_cases {i : Instr} {s t : State} (h : exec i s = .next t) :
    t.tape = s.tape ∨ ((i = .inc ∨ i = .dec ∨ i = .inp) ∧ KeepsOtherCells s t) := by
  rcases exec_cases h with ⟨v, hi, rfl⟩ | ⟨v, -, rfl⟩ | ⟨-, rfl⟩ | ⟨-, -, rfl⟩ | ⟨b, rest, hi, -, rfl⟩ |
    ⟨q, -, -, -, rfl⟩ | ⟨q, -, -, -, rfl⟩ | ⟨-, -, -, rfl⟩ | ⟨-, -, -, rfl⟩ | ⟨-, rfl⟩
  · exact .inr ⟨hi.imp_right .inl, memWrite_keepsOtherCells s v⟩
  iterate 3 exact .inl rfl
  · exact .inr ⟨.inr (.inr hi), memWrite_keepsOtherCells (s.setInput rest) b⟩
  iterate 5 exact .inl rfl

/-- A step keeps the tape, or runs one of the bytes of `+`, `-` and `.` and keeps every cell but the
current one. -/
theorem step_tape_cases {s t : State} (h : step s = .next t) :
    t.tape = s.tape ∨
    ((progRead s s.ip.toNat = some 0x2B ∨ progRead s s.ip.toNat = some 0x2D ∨
      progRead s s.ip.toNat = some 0x2E) ∧ KeepsOtherCells s t) := by
  obtain ⟨rfl, -⟩ | ⟨-, -, b, hb, hexec⟩ := step_cases h
  · exact .inl rfl
  · refine (exec_tape_cases hexec).imp_right (And.imp_left fun hi => ?_)
    rw [hb]
    rcases hi with hi | hi | hi
    · exact .inl (congrArg some (eq_encode_of_decode_eq hi))
    · exact .inr (.inl (congrArg some (eq_encode_of_decode_eq hi)))
    · exact .inr (.inr (congrArg some (eq_encode_of_decode_eq hi)))

theorem load_tape {bytes : List Byte} {s t : State} (h : load bytes s = .next t) :
    t.tape = s.tape := by
  obtain ⟨-, ⟨-, rfl⟩ | ⟨-, rfl⟩⟩ := load_cases h <;> rfl

/-- Of the host operations only RESET and STEP write the tape. -/
theorem hostOp_tape {o : HostOp} {s t : State} (h : hostOp o s = .next t) (hr : o ≠ .reset)
    (hs : o ≠ .step) : t.tape = s.tape := by
  cases o with
  | reset => exact absurd rfl hr
  | step => exact absurd rfl hs
  | load bytes => exact load_tape h
  | offer b => cases h; rfl
  | query q => cases h; rfl

/-! ### The obligations -/

/-- Settles O30: RESET lists nothing in the tape, and of the other operations only a step of `+`, `-` or `.`
writes it, through one `memWrite` at the current address. -/
theorem tapeResetAndWriters : Obligations.TapeResetAndWriters := by
  refine ⟨fun i => memRead_reset_toNat, fun s => memRead_congr (resetOp_tape s), fun o s t h hr => ?_⟩
  by_cases hs : o = .step
  · subst hs
    exact (step_tape_cases h).imp_right fun hw => ⟨rfl, hw⟩
  · exact .inl (hostOp_tape h hr hs)

/-- Settles O41: the tape by its reset pattern, the registers by their values in `State.reset`. -/
theorem resetState : Obligations.ResetState :=
  ⟨fun _ => memRead_reset_toNat, rfl, rfl, rfl, rfl, rfl, rfl, by decide, by decide⟩

end Sys2Proof.Machine
end

section
/-! PROOFS. The tape memory controller, the program store, LOAD and the fetch (20_memory.md rules R37, R40,
R41, R45, R46, R50 and R51). -/

namespace Sys2Proof.Machine

/-! ### Nominal addresses -/

/-- A read depends on the nominal address only through the cell it reaches. -/
theorem memRead_congr_cellIndex (s : State) {a b : Int} (h : cellIndex a = cellIndex b) :
    memRead s a = memRead s b := by
  unfold memRead
  rw [h]

/-- Rule R37 for a read: a nominal address reads the cell at its floor residue. -/
theorem memRead_emod (s : State) (a : Int) : memRead s (a % 65536) = memRead s a :=
  memRead_congr_cellIndex s ((cellIndex_eq_iff _ _).2 (Int.emod_emod a 65536))

@[simp] theorem memRead_memWrite_self (s : State) (a : Int) (v : Byte) :
    memRead (memWrite s a v) a = v := by
  rw [memRead_memWrite, if_pos rfl]

theorem memRead_memWrite_of_ne (s : State) {a b : Int} (v : Byte) (h : b % 65536 ≠ a % 65536) :
    memRead (memWrite s a v) b = memRead s b := by
  rw [memRead_memWrite, if_neg (mt (cellIndex_eq_iff a b).1 h.symm)]

/-! ### The controller operations -/

theorem toNat_memRead_increment (s : State) (a : Int) :
    (memRead (increment s a) a).toNat = ((memRead s a).toNat + 1) % 256 := by
  rw [increment, memRead_memWrite_self, BitVec.toNat_add]
  rfl

theorem toNat_memRead_decrement (s : State) (a : Int) :
    (memRead (decrement s a) a).toNat = ((memRead s a).toNat + 255) % 256 := by
  rw [decrement, memRead_memWrite_self, BitVec.toNat_add]
  rfl

/-! ### The writers of the program store -/

/-- The program store, its length and LOADED are the same in both states. -/
def SameProgramStore (s t : State) : Prop :=
  t.prog = s.prog ∧ t.len = s.len ∧ t.loaded = s.loaded

theorem SameProgramStore.refl (s : State) : SameProgramStore s s := ⟨rfl, rfl, rfl⟩

/-- Rule R51: no instruction writes the program store. -/
theorem exec_sameProgramStore {i : Instr} {s t : State} (h : exec i s = .next t) :
    SameProgramStore s t := by
  rcases exec_cases h with ⟨v, -, rfl⟩ | ⟨v, -, rfl⟩ | ⟨-, rfl⟩ | ⟨-, -, rfl⟩ | ⟨b, rest, -, -, rfl⟩ |
    ⟨q, -, -, -, rfl⟩ | ⟨q, -, -, -, rfl⟩ | ⟨-, -, -, rfl⟩ | ⟨-, -, -, rfl⟩ | ⟨-, rfl⟩
  all_goals exact ⟨rfl, rfl, rfl⟩

theorem step_sameProgramStore {s t : State} (h : step s = .next t) : SameProgramStore s t := by
  obtain ⟨rfl, -⟩ | ⟨-, -, b, -, hexec⟩ := step_cases h
  · exact .refl _
  · exact exec_sameProgramStore hexec

/-- After LOAD only RESET writes the program store: a second LOAD answers no next state. -/
theorem hostOp_sameProgramStore {o : HostOp} {s t : State} (h : hostOp o s = .next t)
    (hl : s.loaded = true) (hr : o ≠ .reset) : SameProgramStore s t := by
  cases o with
  | reset => exact absurd rfl hr
  | load bytes =>
    obtain ⟨hunloaded, -⟩ := load_cases h
    rw [hl] at hunloaded
    cases hunloaded
  | step => exact step_sameProgramStore h
  | offer b => cases h; exact ⟨rfl, rfl, rfl⟩
  | query q => cases h; exact .refl _

/-! ### LOAD -/

/-- The success path of LOAD (rule R45). -/
theorem load_of_length_le {s : State} {bytes : List Byte} (hl : s.loaded = false)
    (hn : bytes.length ≤ 65536) :
    load bytes s = .next
      { s with prog := programCells 0 bytes, len := BitVec.ofNat 17 bytes.length, ip := 0, loaded := true } := by
  rw [load, if_neg (by simp [hl]), if_pos hn]

/-- The failure path of LOAD (rule R46). -/
theorem load_of_lt_length {s : State} {bytes : List Byte} (hl : s.loaded = false)
    (hn : 65536 < bytes.length) :
    load bytes s = .next { s with len := 0, ip := 0, loaded := true, cause := .capacityExceeded } := by
  rw [load, if_neg (by simp [hl]), if_neg (not_le.2 hn)]
  rfl

/-- LEN is wide enough for every length that loads, 65536 included. -/
theorem toNat_ofNat_index {n : Nat} (h : n ≤ 65536) : (BitVec.ofNat 17 n).toNat = n := by
  rw [BitVec.toNat_ofNat]
  omega

theorem runState_halted {s : State} (hc : s.cause = .none) (ha : s.await = false) (hip : s.ip = s.len) :
    runState s = .halted := by
  simp [runState, hc, ha, hip]

/-! ### The fetch -/

theorem fetch_of_ip_eq_len {s : State} (h : s.ip = s.len) : fetch s = .halted := by
  rw [fetch, if_pos h]

/-! ### The obligations -/

/-- Settles O31: an instruction writes only TAPE, AP, IP, CAUSE, AWAIT and the host's sequences, and a LOAD is
refused while LOADED = 1. -/
theorem programStoreImmutable : Obligations.ProgramStoreImmutable := by
  refine ⟨fun i s t h => exec_sameProgramStore h, fun o s t h hl hr => ?_⟩
  obtain ⟨hprog, hlen, hloaded⟩ := hostOp_sameProgramStore h hl hr
  exact ⟨hprog, hlen, hloaded.trans hl⟩

/-- Settles O34: two nominal addresses reach the same cell exactly when their floor residues agree. -/
theorem tapeAccessWraps : Obligations.TapeAccessWraps := by
  refine ⟨fun s a => (memRead_emod s a).symm, fun s a b v => ?_⟩
  simp only [memRead_memWrite, cellIndex_eq_iff]

/-- Settles O35: both operations are one `memWrite` at the address. -/
theorem controllerIncrementDecrement : Obligations.ControllerIncrementDecrement := fun s a =>
  ⟨toNat_memRead_increment s a, toNat_memRead_decrement s a,
    fun _ hb => ⟨memRead_memWrite_of_ne s _ hb, memRead_memWrite_of_ne s _ hb⟩,
    memWrite_eq s a _, memWrite_eq s a _⟩

/-- Settles O43: the store reads back byte for byte, and an empty program leaves IP = LEN = 0. -/
theorem loadSucceeds : Obligations.LoadSucceeds := by
  intro s bytes hl hn
  refine ⟨_, load_of_length_le hl hn, rfl, toNat_ofNat_index hn,
    fun i _ => progRead_programCells s bytes i, ?_⟩
  rintro rfl hc ha
  exact runState_halted hc ha rfl

/-- Settles O15: the byte at IP below LEN, the sentinel at LEN. -/
theorem fetchAnswersByteOrHalted : Obligations.FetchAnswersByteOrHalted := fun s =>
  ⟨fun hlt _ hb => fetch_byte s hlt hb, fun heq => fetch_of_ip_eq_len (BitVec.eq_of_toNat_eq heq)⟩

/-- Settles O44: the failure path writes LEN, IP, LOADED and CAUSE and keeps the store. -/
theorem loadExceedsCapacity : Obligations.LoadExceedsCapacity := fun _ _ hl hn =>
  ⟨_, load_of_lt_length hl hn, rfl, rfl⟩

end Sys2Proof.Machine
end

section
/-! PROOFS. The decode table (30_encoding.md rule R67). -/

namespace Sys2Proof.Machine

/-- Rule R67, the last row: a byte that differs from all eight instruction bytes falls through every
comparison of the decoder. -/
theorem decode_of_not_mem_instructionBytes {b : Byte} (hb : b ∉ instructionBytes) :
    decode b = .nop b := by
  simp only [instructionBytes, List.mem_cons, List.not_mem_nil, or_false, not_or] at hb
  obtain ⟨hinc, hdec, hright, hleft, hout, hinp, hjz, hjnz⟩ := hb
  rw [decode, if_neg hinc, if_neg hdec, if_neg hright, if_neg hleft, if_neg hout, if_neg hinp,
    if_neg hjz, if_neg hjnz]

theorem instructionBytes_nodup : instructionBytes.Nodup := by decide

/-- Settles O2: the eight rows by evaluating the decoder at each byte, the ninth for every byte outside
`instructionBytes`. -/
theorem decodeTable : Obligations.DecodeTable :=
  ⟨rfl, rfl, rfl, rfl, rfl, rfl, rfl, rfl, instructionBytes_nodup,
    fun _ => decode_of_not_mem_instructionBytes⟩

end Sys2Proof.Machine
end

section
/-! PROOFS. The stepper: which operations raise a fatal condition, the sequential advance, and the halted step
(40_stepper.md rules R79, R81 and R86). -/

namespace Sys2Proof.Machine

/-! ### The two branches of STEP -/

/-- Rule R79: with IP = LEN a step is a no-op, whether or not a fatal condition stands. -/
theorem step_of_ip_eq_len {s : State} (h : s.ip = s.len) : step s = .next s := by
  have hidle : stepAction s = .idle := by
    rw [stepAction, fetch_of_ip_eq_len h]
    exact ite_self _
  rw [step, hidle]

/-- Rule R78: with no fatal condition and IP < LEN, a step is the instruction of the byte at IP. -/
theorem step_eq_exec {s : State} {b : Byte} (hc : s.cause = .none) (hlt : s.ip.toNat < s.len.toNat)
    (hb : progRead s s.ip.toNat = some b) : step s = exec (decode b) s := by
  rw [step, stepAction_run hc hlt hb]

/-! ### The sequential advance -/

/-- Rule R81: an instruction that neither takes a jump nor waits for input ends with `IP <- IP + 1`, and
nothing before that write changes IP or LEN. -/
theorem exec_advances {i : Instr} {s : State} (hjz : i = .jz → memRead s (currentAddr s) ≠ 0)
    (hjnz : i = .jnz → memRead s (currentAddr s) = 0) (hinp : i = .inp → s.input ≠ []) :
    ∃ u, exec i s = .next (advanceIp u) ∧ u.ip = s.ip ∧ u.len = s.len := by
  cases i with
  | inc => exact ⟨_, exec_inc s, rfl, rfl⟩
  | dec => exact ⟨_, exec_dec s, rfl, rfl⟩
  | right => exact ⟨_, exec_right s, rfl, rfl⟩
  | left => exact ⟨_, exec_left s, rfl, rfl⟩
  | out => exact ⟨_, exec_out s, rfl, rfl⟩
  | inp =>
    obtain ⟨b, rest, hin⟩ := List.exists_cons_of_ne_nil (hinp rfl)
    exact ⟨_, exec_inp_cons s hin, rfl, rfl⟩
  | jz => exact ⟨_, exec_jz_nonzero s (hjz rfl), rfl, rfl⟩
  | jnz => exact ⟨_, exec_jnz_zero s (hjnz rfl), rfl, rfl⟩
  | nop b => exact ⟨_, exec_nop s b, rfl, rfl⟩

/-- IP + 1 does not wrap below LEN. -/
theorem toNat_advanceIp_ip {s : State} (hlt : s.ip.toNat < s.len.toNat) :
    (advanceIp s).ip.toNat = s.ip.toNat + 1 := by
  have := s.len.isLt
  rw [advanceIp_ip]
  bv_omega

/-! ### The writers of CAUSE -/

/-- The guard under which a bracket scans: `[` with the cell 0, `]` with the cell not 0 (rule R86). -/
def Scans (i : Instr) (s : State) : Prop :=
  (i = .jz ∧ memRead s (currentAddr s) = 0) ∨ (i = .jnz ∧ memRead s (currentAddr s) ≠ 0)

/-- An instruction keeps CAUSE, or is a bracket that scans and raises UnbalancedBracket. -/
theorem exec_cause_cases {i : Instr} {s t : State} (h : exec i s = .next t) :
    t.cause = s.cause ∨ (t.cause = .unbalancedBracket ∧ Scans i s) := by
  rcases exec_cases h with ⟨v, -, rfl⟩ | ⟨v, -, rfl⟩ | ⟨-, rfl⟩ | ⟨-, -, rfl⟩ | ⟨b, rest, -, -, rfl⟩ |
    ⟨q, -, -, -, rfl⟩ | ⟨q, -, -, -, rfl⟩ | ⟨hi, hz, -, rfl⟩ | ⟨hi, hz, -, rfl⟩ | ⟨-, rfl⟩
  iterate 7 exact .inl rfl
  · exact .inr ⟨rfl, .inl ⟨hi, hz⟩⟩
  · exact .inr ⟨rfl, .inr ⟨hi, hz⟩⟩
  · exact .inl rfl

/-- A step keeps CAUSE, or raises UnbalancedBracket where none stood, from a bracket that scans. -/
theorem step_cause_cases {s t : State} (h : step s = .next t) :
    t.cause = s.cause ∨ (t.cause = .unbalancedBracket ∧ s.cause = .none ∧
      ∃ b, progRead s s.ip.toNat = some b ∧ Scans (decode b) s) := by
  obtain ⟨rfl, -⟩ | ⟨hc, -, b, hb, hexec⟩ := step_cases h
  · exact .inl rfl
  · exact (exec_cause_cases hexec).imp_right fun ⟨ht, hscan⟩ => ⟨ht, hc, b, hb, hscan⟩

/-- A host operation that answers CapacityExceeded found it standing, or is a LOAD beyond the capacity. -/
theorem hostOp_capacityExceeded {o : HostOp} {s t : State} (h : hostOp o s = .next t)
    (ht : t.cause = .capacityExceeded) :
    s.cause = .capacityExceeded ∨ ∃ bytes, o = .load bytes ∧ 65536 < bytes.length := by
  cases o with
  | reset => cases h; cases ht
  | load bytes =>
    obtain ⟨-, ⟨-, rfl⟩ | ⟨hn, -⟩⟩ := load_cases h
    · exact .inl ht
    · exact .inr ⟨bytes, rfl, hn⟩
  | step =>
    obtain hkeep | ⟨hub, -⟩ := step_cause_cases h
    · exact .inl (hkeep.symm.trans ht)
    · rw [hub] at ht
      cases ht
  | offer b => cases h; exact .inl ht
  | query q => cases h; exact .inl ht

/-! ### The obligations -/

/-- Settles O24: a step changes CAUSE only through the scan of a bracket, and of the other operations only
RESET and LOAD write it. -/
theorem onlyBracketsAndLoadRaise : Obligations.OnlyBracketsAndLoadRaise := by
  refine ⟨fun s t h hne => ?_, fun o s t h ht hs => (hostOp_capacityExceeded h ht).resolve_left hs⟩
  obtain ⟨ht, hc, b, hb, hscan⟩ := (step_cause_cases h).resolve_left hne
  refine ⟨ht, hc, ?_⟩
  rw [hb]
  exact hscan.imp (And.imp_left fun hi => congrArg some (eq_encode_of_decode_eq hi))
    (And.imp_left fun hi => congrArg some (eq_encode_of_decode_eq hi))

/-- Settles O26: the excluded bytes are the encodings of the taken jumps and of the waiting input, and IP + 1
does not wrap below LEN. -/
theorem sequentialAdvance : Obligations.SequentialAdvance := by
  intro s b hc hlt hb hjz hjnz hinp
  obtain ⟨u, hexec, hip, hlen⟩ : ∃ u, exec (decode b) s = .next (advanceIp u) ∧ u.ip = s.ip ∧ u.len = s.len :=
    exec_advances (fun hi hz => hjz ⟨eq_encode_of_decode_eq hi, hz⟩)
      (fun hi => not_not.1 fun hz => hjnz ⟨eq_encode_of_decode_eq hi, hz⟩)
      (fun hi hin => hinp ⟨eq_encode_of_decode_eq hi, hin⟩)
  have hnext : (advanceIp u).ip.toNat = s.ip.toNat + 1 := by
    rw [toNat_advanceIp_ip (by rwa [hip, hlen]), hip]
  refine ⟨advanceIp u, (step_eq_exec hc hlt hb).trans hexec, hnext, ?_⟩
  rw [hnext, advanceIp_len, hlen]
  exact hlt

/-- Settles O16: IP = LEN makes the step a no-op, and the reset state has IP = LEN = 0. -/
theorem haltedStepChangesNothing : Obligations.HaltedStepChangesNothing :=
  ⟨fun _ _ hip => step_of_ip_eq_len hip, step_of_ip_eq_len rfl⟩

end Sys2Proof.Machine
end

section
/-! PROOFS. The tape instructions (41_tape_ops.md rules R89 to R92). -/

namespace Sys2Proof.Machine

/-! ### The two ways a tape instruction ends -/

/-- The frame that `+` and `-` share: a write of the current cell, then IP + 1. -/
theorem advanceIp_memWrite_frame (s : State) (a : Int) (v : Byte) :
    advanceIp (memWrite s a v) = { s with tape := (memWrite s a v).tape, ip := s.ip + 1 } := rfl

/-- The frame that `>` and `<` share: a write of AP, then IP + 1. -/
theorem advanceIp_setAp_frame (s : State) (v : Addr) :
    advanceIp (s.setAp v) = { s with ap := v, ip := s.ip + 1 } := rfl

/-! ### The wraparound of AP -/

theorem toNat_addr_add_one (v : Addr) : (v + 1).toNat = (v.toNat + 1) % 65536 :=
  BitVec.toNat_add v 1

/-- AP - 1 in 16 bits is AP + 65535 modulo 65536 (rule R92). -/
theorem toNat_addr_sub_one (v : Addr) : (v - 1).toNat = (v.toNat + 65535) % 65536 := by
  bv_omega

/-! ### The obligations -/

/-- Settles O4: `+` is one controller increment at AP, and the advance that follows it writes IP only, so the
engine halts when the new IP is LEN. -/
theorem incrementInstruction : Obligations.IncrementInstruction :=
  ⟨rfl, fun s => ⟨_, exec_inc s, advanceIp_memWrite_frame s _ _,
    toNat_memRead_increment s (currentAddr s), memWrite_keepsOtherCells s _,
    fun hcause hawait hip => runState_halted hcause hawait hip⟩⟩

/-- Settles O5: `-` is one controller decrement at AP, and the advance that follows it writes IP only. -/
theorem decrementInstruction : Obligations.DecrementInstruction :=
  ⟨rfl, fun s => ⟨_, exec_dec s, advanceIp_memWrite_frame s _ _,
    toNat_memRead_decrement s (currentAddr s), memWrite_keepsOtherCells s _⟩⟩

/-- Settles O6: `>` writes AP and IP, and a read of the tape depends on neither. -/
theorem rightInstruction : Obligations.RightInstruction :=
  ⟨rfl, fun s => ⟨_, exec_right s, advanceIp_setAp_frame s _, toNat_addr_add_one s.ap,
    memRead_setAp s (s.ap + 1)⟩⟩

/-- Settles O7: `<` writes AP and IP, and a read of the tape depends on neither. -/
theorem leftInstruction : Obligations.LeftInstruction :=
  ⟨rfl, fun s => ⟨_, exec_left s, advanceIp_setAp_frame s _, toNat_addr_sub_one s.ap,
    memRead_setAp s (s.ap - 1)⟩⟩

end Sys2Proof.Machine
end

section
/-! PROOFS. The bracket scanner (43_loop.md rules R104 and R106): its forward loop, what the scans answer in
terms of `Matches`, and matching in a balanced program. -/

namespace Sys2Proof.Machine

/-! ### The loop of ScanForward -/

/-- Rule R104: one iteration of the loop, at a position that holds a byte. -/
theorem scanForwardFrom_succ {prog : Memory} {p : Nat} {b : Byte} (left d : Nat)
    (hb : Memory.lookup prog p = some b) :
    scanForwardFrom prog (left + 1) p d =
      if b = openByte then scanForwardFrom prog left (p + 1) (d + 1)
      else if b = closeByte ∧ d = 0 then .found (BitVec.ofNat 17 (p + 1))
      else if b = closeByte then scanForwardFrom prog left (p + 1) (d - 1)
      else scanForwardFrom prog left (p + 1) d := by
  rw [scanForwardFrom, hb]
  by_cases hc : b = closeByte <;> simp [hc]

/-! ### Matching ends a scan -/

/-- A `[` matches where a forward scan from the next position with counter 0 ends. -/
theorem matches_iff_forwardEnd {bs : List Byte} {j : Nat} (hj : bs[j]? = some openByte) (k : Nat) :
    Matches bs j k ↔ ForwardEnd bs (j + 1) 0 k := by
  simp [matches_iff, ForwardEnd, hj]

/-- A `]` matches where a backward scan below it with counter 0 ends. -/
theorem matches_iff_backwardEnd {bs : List Byte} {k : Nat} (hk : bs[k]? = some closeByte) (j : Nat) :
    Matches bs j k ↔ BackwardEnd bs k 0 j := by
  rw [matches_iff, BackwardEnd, Nat.cast_zero, sub_zero]
  constructor
  · rintro ⟨hlt, hj, -, hdepth, hmin⟩
    exact ⟨hlt, hj, hdepth.symm, hdepth ▸ hmin⟩
  · rintro ⟨hlt, hj, hdepth, hmin⟩
    exact ⟨hlt, hj, hk, hdepth.symm, hdepth ▸ hmin⟩

/-! ### What the scans answer -/

section
variable {s : State} {bs : List Byte}

theorem lt_length_of_getElem?_eq_some {i : Nat} {b : Byte} (h : bs[i]? = some b) : i < bs.length :=
  (List.getElem?_eq_some_iff.1 h).1

/-- Everything the scan of a `[` can answer. -/
theorem scanForward_cases (hs : HoldsProgram s bs) (hb : bs[s.ip.toNat]? = some openByte) :
    (∃ k, Matches bs s.ip.toNat k ∧ scanForward s = .found (BitVec.ofNat 17 (k + 1))) ∨
    ((∀ k, ¬ Matches bs s.ip.toNat k) ∧ scanForward s = .unbalanced) := by
  obtain ⟨hlen, hprog⟩ := hs
  have hip := lt_length_of_getElem?_eq_some hb
  simp only [matches_iff_forwardEnd hb]
  exact scanForwardFrom_spec hprog _ _ 0 (by omega)

/-- Everything the scan of a `]` can answer. -/
theorem scanBackward_cases (hs : HoldsProgram s bs) (hb : bs[s.ip.toNat]? = some closeByte) :
    (∃ j, Matches bs j s.ip.toNat ∧ scanBackward s = .found (BitVec.ofNat 17 (j + 1))) ∨
    ((∀ j, ¬ Matches bs j s.ip.toNat) ∧ scanBackward s = .unbalanced) := by
  simp only [matches_iff_backwardEnd hb]
  exact scanBackwardFrom_spec hs.2 _ 0 (lt_length_of_getElem?_eq_some hb).le

end

/-! ### A match is unique -/

section
variable {bs : List Byte} {j j' k k' : Nat}

/-- Past a match of `j` the depth is below the depth inside it, so no match of `j` reaches further. -/
theorem Matches.close_le (h : Matches bs j k) (h' : Matches bs j k') : k' ≤ k := by
  obtain ⟨hjk, -, hk, hdepth, -⟩ := (matches_iff bs j k).1 h
  obtain ⟨-, -, -, -, hmin⟩ := (matches_iff bs j k').1 h'
  by_contra hlt
  have hpast := depthAt_succ hk
  have := hmin (k + 1) (by omega) (by omega)
  rw [bracketWeight_close] at hpast
  omega

theorem Matches.close_unique (h : Matches bs j k) (h' : Matches bs j k') : k' = k :=
  le_antisymm (h.close_le h') (h'.close_le h)

/-- Before a match of `k` the depth is below the depth inside it, so no match of `k` reaches further. -/
theorem Matches.open_le (h : Matches bs j k) (h' : Matches bs j' k) : j ≤ j' := by
  obtain ⟨hjk, hj, -, hdepth, -⟩ := (matches_iff bs j k).1 h
  obtain ⟨-, -, -, hdepth', hmin⟩ := (matches_iff bs j' k).1 h'
  by_contra hlt
  have hinside := depthAt_succ hj
  have := hmin j (by omega) (by omega)
  rw [bracketWeight_open] at hinside
  omega

theorem Matches.open_unique (h : Matches bs j k) (h' : Matches bs j' k) : j' = j :=
  le_antisymm (h'.open_le h) (h.open_le h')

end

/-! ### The scan of a matched bracket -/

theorem scanForward_of_matches {s : State} {bs : List Byte} {k : Nat} (hs : HoldsProgram s bs)
    (h : Matches bs s.ip.toNat k) : scanForward s = .found (BitVec.ofNat 17 (k + 1)) := by
  obtain ⟨k', hm, hscan⟩ | ⟨hno, -⟩ := scanForward_cases hs h.2.1
  · rw [hscan, h.close_unique hm]
  · exact absurd h (hno k)

theorem scanBackward_of_matches {s : State} {bs : List Byte} {j : Nat} (hs : HoldsProgram s bs)
    (h : Matches bs j s.ip.toNat) : scanBackward s = .found (BitVec.ofNat 17 (j + 1)) := by
  obtain ⟨j', hm, hscan⟩ | ⟨hno, -⟩ := scanBackward_cases hs h.2.2.1
  · rw [hscan, h.open_unique hm]
  · exact absurd h (hno j)

/-! ### In a balanced program every bracket has a match -/

section
variable {bs : List Byte}

/-- The depth falls only at a `]`, and there by one. -/
theorem depthAt_le_succ_or_close {n : Nat} (hn : n < bs.length) :
    depthAt bs n ≤ depthAt bs (n + 1) ∨
    (bs[n]? = some closeByte ∧ depthAt bs (n + 1) = depthAt bs n - 1) := by
  obtain ⟨b, hb⟩ := getElem?_some_of_lt hn
  have hs := depthAt_succ hb
  by_cases hc : b = closeByte
  · subst hc
    exact .inr ⟨hb, hs⟩
  · left
    rw [hs, bracketWeight, if_neg hc]
    split <;> omega

/-- The depth rises only at a `[`, and there by one. -/
theorem depthAt_succ_le_or_open {n : Nat} (hn : n < bs.length) :
    depthAt bs (n + 1) ≤ depthAt bs n ∨
    (bs[n]? = some openByte ∧ depthAt bs (n + 1) = depthAt bs n + 1) := by
  obtain ⟨b, hb⟩ := getElem?_some_of_lt hn
  have hs := depthAt_succ hb
  by_cases ho : b = openByte
  · subst ho
    exact .inr ⟨hb, hs⟩
  · left
    rw [hs, bracketWeight, if_neg ho]
    split <;> omega

/-- Where no forward scan ends, the depth never falls below its start. -/
theorem depthAt_le_of_no_forwardEnd {p : Nat} (hno : ∀ k, ¬ ForwardEnd bs p 0 k) (n : Nat) :
    p ≤ n → n ≤ bs.length → depthAt bs p ≤ depthAt bs n := by
  induction n using Nat.strong_induction_on with
  | _ n ih =>
    intro hpn hn
    obtain rfl | hlt := Nat.eq_or_lt_of_le hpn
    · exact le_rfl
    obtain ⟨k, rfl⟩ := Nat.exists_eq_add_one_of_ne_zero (Nat.ne_zero_of_lt hlt)
    have hmin : ∀ m, p ≤ m → m ≤ k → depthAt bs p ≤ depthAt bs m :=
      fun m hpm hmk => ih m (by omega) hpm (by omega)
    have hk := hmin k (by omega) le_rfl
    obtain hup | ⟨hc, hdown⟩ := depthAt_le_succ_or_close (bs := bs) (n := k) (by omega)
    · omega
    · by_contra hfall
      exact hno k ⟨by omega, hc, by omega, by simpa using hmin⟩

/-- Where no backward scan ends, the depth never lies below its start. -/
theorem depthAt_le_of_no_backwardEnd {p : Nat} (hp : p ≤ bs.length) (hno : ∀ j, ¬ BackwardEnd bs p 0 j)
    (n : Nat) : n ≤ p → depthAt bs p ≤ depthAt bs n := by
  induction n using Nat.strong_decreasing_induction with
  | base => exact ⟨p, fun n hn hnp => absurd hn (not_lt.2 hnp)⟩
  | step n ih =>
    intro hnp
    obtain rfl | hlt := Nat.eq_or_lt_of_le hnp
    · exact le_rfl
    have hn := ih (n + 1) (by omega) hlt
    obtain hdown | ⟨ho, hup⟩ := depthAt_succ_le_or_open (bs := bs) (n := n) (by omega)
    · omega
    · by_contra hfall
      exact hno n ⟨hlt, ho, by omega, fun m hnm hmp => by simpa using ih m hnm hmp⟩

variable (h : BracketsBalanced bs)
include h

theorem BracketsBalanced.depthAt_length : depthAt bs bs.length = 0 := by
  rw [depthAt, List.take_length, h.1]

/-- The depth inside a `[` is positive and the depth at the end is 0, so a forward scan ends. -/
theorem BracketsBalanced.exists_close {j : Nat} (hj : bs[j]? = some openByte) : ∃ k, Matches bs j k := by
  simp only [matches_iff_forwardEnd hj]
  by_contra hno
  have hlt := lt_length_of_getElem?_eq_some hj
  have hend := depthAt_le_of_no_forwardEnd (not_exists.1 hno) bs.length hlt le_rfl
  have hbefore : 0 ≤ depthAt bs j := h.2 j hlt.le
  rw [h.depthAt_length, depthAt_succ hj, bracketWeight_open] at hend
  omega

/-- The depth inside a `]` is positive and the depth at the start is 0, so a backward scan ends. -/
theorem BracketsBalanced.exists_open {k : Nat} (hk : bs[k]? = some closeByte) : ∃ j, Matches bs j k := by
  simp only [matches_iff_backwardEnd hk]
  by_contra hno
  have hlt := lt_length_of_getElem?_eq_some hk
  have hstart := depthAt_le_of_no_backwardEnd hlt.le (not_exists.1 hno) 0 (Nat.zero_le k)
  have hpast : 0 ≤ depthAt bs (k + 1) := h.2 (k + 1) hlt
  rw [depthAt_succ hk, bracketWeight_close] at hpast
  rw [depthAt_zero] at hstart
  omega

end

/-! ### The obligations -/

/-- Settles O47: at `p` below LEN the loop has `LEN - (p + 1)` further positions after this one. -/
theorem forwardScanLoop : Obligations.ForwardScanLoop := by
  refine fun s => ⟨rfl, fun p d => ⟨fun hp => ?_, fun b hp hb => ?_⟩⟩
  · rw [Nat.sub_eq_zero_of_le hp]
    rfl
  · rw [show s.len.toNat - p = s.len.toNat - (p + 1) + 1 by omega]
    exact scanForwardFrom_succ _ d hb

/-- Settles O50: a match exists because the depth is 0 at both ends of a balanced program, it is unique
because the depth falls below its inside just beyond it, and both scans answer it. -/
theorem bracketSymmetry : Obligations.BracketSymmetry := by
  intro bs hbal
  refine ⟨fun j hj => ?_, fun k hk => ?_, fun s j k hs hm => ⟨?_, ?_⟩⟩
  · obtain ⟨k, hk⟩ := hbal.exists_close hj
    exact ⟨k, hk, fun _ => hk.close_unique⟩
  · obtain ⟨j, hj⟩ := hbal.exists_open hk
    exact ⟨j, hj, fun _ => hj.open_unique⟩
  · rintro rfl
    exact scanForward_of_matches hs hm
  · rintro rfl
    exact scanBackward_of_matches hs hm

end Sys2Proof.Machine
end

section
/-! PROOFS. The loop instructions (43_loop.md rules R102, R103 and R107). -/

namespace Sys2Proof.Machine

variable {s : State}

/-! ### The end of a taken jump -/

theorem exec_jz_of_scan {r : Scan} (hz : memRead s (currentAddr s) = 0) (hscan : scanForward s = r) :
    exec .jz s = jumpByScan s r := by
  rw [exec_jz_zero s hz, hscan]

theorem exec_jnz_of_scan {r : Scan} (hz : memRead s (currentAddr s) ≠ 0) (hscan : scanBackward s = r) :
    exec .jnz s = jumpByScan s r := by
  rw [exec_jnz_nonzero s hz, hscan]

/-- A bracket ends with a taken jump or with the advance of IP. -/
theorem exec_bracket_cases {i : Instr} (hi : i = .jz ∨ i = .jnz) (s : State) :
    (∃ r, exec i s = jumpByScan s r) ∨ exec i s = .next (advanceIp s) := by
  by_cases hz : memRead s (currentAddr s) = 0
  · rcases hi with rfl | rfl
    · exact .inl ⟨_, exec_jz_zero s hz⟩
    · exact .inr (exec_jnz_zero s hz)
  · rcases hi with rfl | rfl
    · exact .inr (exec_jz_nonzero s hz)
    · exact .inl ⟨_, exec_jnz_nonzero s hz⟩

/-! ### The obligations -/

/-- Settles O10: with the cell 0 the instruction ends as its scan does, and the scan ends at the match. -/
theorem loopBeginInstruction : Obligations.LoopBeginInstruction := by
  refine ⟨rfl, fun s hnz => exec_jz_nonzero s hnz, fun s bs hz hs hb => ⟨fun k hm => ?_, fun hno => ?_⟩⟩
  · exact exec_jz_of_scan hz (scanForward_of_matches hs hm)
  · obtain ⟨k, hm, -⟩ | ⟨-, hscan⟩ := scanForward_cases hs hb
    · exact absurd ⟨k, hm⟩ hno
    · exact exec_jz_of_scan hz hscan

/-- Settles O11: with the cell not 0 the instruction ends as its scan does, and the scan ends at the
match. -/
theorem loopEndInstruction : Obligations.LoopEndInstruction := by
  refine ⟨rfl, fun s hz => exec_jnz_zero s hz, fun s bs hnz hs hb => ⟨fun j hm => ?_, fun hno => ?_⟩⟩
  · exact exec_jnz_of_scan hnz (scanBackward_of_matches hs hm)
  · obtain ⟨j, hm, -⟩ | ⟨-, hscan⟩ := scanBackward_cases hs hb
    · exact absurd ⟨j, hm⟩ hno
    · exact exec_jnz_of_scan hnz hscan

/-- Settles O52: the advance and a match write IP, an unbalanced scan writes CAUSE. -/
theorem scanWritesOnlyIpOrCause : Obligations.ScanWritesOnlyIpOrCause := by
  intro i s t hi h
  obtain ⟨r, hexec⟩ | hexec := exec_bracket_cases hi s
  · obtain ⟨q, -, rfl⟩ | ⟨-, rfl⟩ := jumpByScan_cases (hexec.symm.trans h)
    · exact .inl rfl
    · exact .inr rfl
  · cases hexec.symm.trans h
    exact .inl rfl

end Sys2Proof.Machine
end

section
/-! PROOFS. Commentary bytes (44_nop.md rule R111). -/

namespace Sys2Proof.Machine

/-- Rule R111 lists the eight instruction bytes of rule R66 by rising value. -/
theorem instructionBytes_perm_ascending :
    instructionBytes.Perm [0x2B, 0x2C, 0x2D, 0x2E, 0x3C, 0x3E, 0x5B, 0x5D] := by decide

/-- The frame of commentary: the advance writes IP only. -/
theorem advanceIp_frame (s : State) : advanceIp s = { s with ip := s.ip + 1 } := rfl

/-- Settles O12: a byte outside the listed eight falls through the decoder, and commentary is the advance of
IP alone. -/
theorem commentaryInstruction : Obligations.CommentaryInstruction := by
  refine ⟨fun b hb => ?_, fun s b => ?_⟩
  · exact decode_of_not_mem_instructionBytes (mt instructionBytes_perm_ascending.mem_iff.mp hb)
  · rw [exec_nop, advanceIp_frame]

end Sys2Proof.Machine
end

section
/-! PROOFS. Decode and encode are inverse (30_encoding.md rules R66, R67 and R70). -/

namespace Sys2Proof.Machine

/-- On an instruction byte the decoder answers one of the eight operations, which are well-formed. -/
theorem decode_wf_of_mem_instructionBytes {b : Byte} (hb : b ∈ instructionBytes) : (decode b).wf = true := by
  have hall : ∀ c ∈ instructionBytes, (decode c).wf = true := by decide
  exact hall b hb

theorem nop_wf_iff (b : Byte) : (Instr.nop b).wf = true ↔ b ∉ instructionBytes := by
  simp [Instr.wf]

/-- Rule R67: the decoder answers well-formed instructions only. -/
theorem decode_wf (b : Byte) : (decode b).wf = true := by
  by_cases hb : b ∈ instructionBytes
  · exact decode_wf_of_mem_instructionBytes hb
  · rw [decode_of_not_mem_instructionBytes hb, nop_wf_iff]
    exact hb

/-- Rule R70: a well-formed instruction is the decoding of its byte. -/
theorem decode_encode {i : Instr} (h : i.wf = true) : decode (encode i) = i := by
  cases i with
  | nop b => exact decode_of_not_mem_instructionBytes ((nop_wf_iff b).1 h)
  | inc | dec | right | left | out | inp | jz | jnz => rfl

/-! ### The obligations -/

/-- Settles O1: the eight operations by evaluating the decoder at their bytes, commentary because its byte is
none of the eight. -/
theorem decodeEncodeRoundTrip : Obligations.DecodeEncodeRoundTrip :=
  ⟨fun _ => decode_encode, fun b => ⟨decode_wf b, encode_decode b⟩⟩

/-- Settles O3: each row by evaluating the decoder at its word. -/
theorem opcodeTableWords : Obligations.OpcodeTableWords :=
  ⟨rfl, rfl, rfl, rfl, rfl, rfl, rfl⟩

end Sys2Proof.Machine
end

section
/-! PROOFS. How an instruction ends: it waits for input, it raises UnbalancedBracket, or it retires
(40_stepper.md section 1), and where the new IP then stands. -/

namespace Sys2Proof.Machine

/-! ### The run state, from the registers it is derived from -/

section
variable (s : State)

theorem runState_eq_fault_iff : runState s = .fault ↔ s.cause ≠ .none := by
  unfold runState
  split_ifs <;> simp_all

theorem runState_eq_awaitingInput_iff :
    runState s = .awaitingInput ↔ s.cause = .none ∧ s.await = true := by
  unfold runState
  split_ifs <;> simp_all

theorem runState_eq_halted_iff :
    runState s = .halted ↔ s.cause = .none ∧ s.await = false ∧ s.ip = s.len := by
  unfold runState
  split_ifs <;> simp_all

theorem runState_eq_running_iff :
    runState s = .running ↔ s.cause = .none ∧ s.await = false ∧ s.ip ≠ s.len := by
  unfold runState
  split_ifs <;> simp_all

end

/-! ### The three ends -/

/-- The instruction waits for input: AWAIT is set and nothing else changes (rule R94). -/
def Waits (i : Instr) (s t : State) : Prop :=
  i = .inp ∧ s.input = [] ∧ t = s.setAwait true

/-- A bracket scans, and the scan leaves the bounds of the program (rules R102 to R105). -/
def ScanFails (i : Instr) (s : State) : Prop :=
  (i = .jz ∧ memRead s (currentAddr s) = 0 ∧ scanForward s = .unbalanced) ∨
  (i = .jnz ∧ memRead s (currentAddr s) ≠ 0 ∧ scanBackward s = .unbalanced)

/-- The new IP of an instruction that retires: the next position or the answer of the scan (rule R81). -/
def NextIp (i : Instr) (s : State) (q : Index) : Prop :=
  q = s.ip + 1 ∨ (i = .jz ∧ memRead s (currentAddr s) = 0 ∧ scanForward s = .found q) ∨
  (i = .jnz ∧ memRead s (currentAddr s) ≠ 0 ∧ scanBackward s = .found q)

/-- The instruction retires: what it keeps, and where IP goes. -/
structure Retires (i : Instr) (s t : State) : Prop where
  store : SameProgramStore s t
  cause : t.cause = s.cause
  await : t.await = if i = .inp then false else s.await
  input : i = .inp → s.input ≠ []
  scan : ¬ ScanFails i s
  ip : NextIp i s t.ip
  tape : Memory.wf tapeUnlisted Config.tapeCap s.tape → Memory.wf tapeUnlisted Config.tapeCap t.tape

theorem not_scanFails_jz {s : State} (hz : memRead s (currentAddr s) ≠ 0) : ¬ ScanFails .jz s := by
  rintro (⟨-, h0, -⟩ | ⟨hi, -, -⟩)
  · exact hz h0
  · cases hi

theorem not_scanFails_of_not_bracket {i : Instr} (s : State) (hjz : i ≠ .jz) (hjnz : i ≠ .jnz) :
    ¬ ScanFails i s := by
  rintro (⟨hi, -, -⟩ | ⟨hi, -, -⟩)
  · exact hjz hi
  · exact hjnz hi

/-- An instruction that answers a next state ends in one of the three ways. -/
theorem exec_ends {i : Instr} {s t : State} (h : exec i s = .next t) :
    Waits i s t ∨ (ScanFails i s ∧ t = s.setCause .unbalancedBracket) ∨ Retires i s t := by
  have store := exec_sameProgramStore h
  rcases exec_cases h with ⟨v, hi, rfl⟩ | ⟨v, hi, rfl⟩ | ⟨rfl, rfl⟩ | ⟨rfl, hin, rfl⟩ |
    ⟨b, rest, rfl, hin, rfl⟩ | ⟨q, rfl, hz, hq, rfl⟩ | ⟨q, rfl, hz, hq, rfl⟩ | ⟨rfl, hz, hq, rfl⟩ |
    ⟨rfl, hz, hq, rfl⟩ | ⟨hi, rfl⟩
  · rcases hi with rfl | rfl <;>
      exact .inr (.inr ⟨store, rfl, rfl, nofun, not_scanFails_of_not_bracket s nofun nofun, .inl rfl,
        memWrite_wf s _ v⟩)
  · rcases hi with rfl | rfl <;>
      exact .inr (.inr ⟨store, rfl, rfl, nofun, not_scanFails_of_not_bracket s nofun nofun, .inl rfl, id⟩)
  · exact .inr (.inr ⟨store, rfl, rfl, nofun, not_scanFails_of_not_bracket s nofun nofun, .inl rfl, id⟩)
  · exact .inl ⟨rfl, hin, rfl⟩
  · exact .inr (.inr ⟨store, rfl, rfl, by simp [hin], not_scanFails_of_not_bracket s nofun nofun, .inl rfl,
      memWrite_wf (s.setInput rest) _ b⟩)
  · exact .inr (.inr ⟨store, rfl, rfl, nofun, by simp [ScanFails, hq], .inr (.inl ⟨rfl, hz, hq⟩), id⟩)
  · exact .inr (.inr ⟨store, rfl, rfl, nofun, by simp [ScanFails, hq], .inr (.inr ⟨rfl, hz, hq⟩), id⟩)
  · exact .inr (.inl ⟨.inl ⟨rfl, hz, hq⟩, rfl⟩)
  · exact .inr (.inl ⟨.inr ⟨rfl, hz, hq⟩, rfl⟩)
  · rcases hi with ⟨rfl, hz⟩ | ⟨rfl, hz⟩ | ⟨b, rfl⟩
    · exact .inr (.inr ⟨store, rfl, rfl, nofun, not_scanFails_jz hz, .inl rfl, id⟩)
    · exact .inr (.inr ⟨store, rfl, rfl, nofun, by simp [ScanFails, currentAddr, hz], .inl rfl, id⟩)
    · exact .inr (.inr ⟨store, rfl, rfl, nofun, not_scanFails_of_not_bracket s nofun nofun, .inl rfl, id⟩)

/-! ### Where a taken jump goes -/

/-- The target of a taken `[`: past the next position, at most LEN, one past a `]`. -/
theorem scanForward_found {s : State} {q : Index} (h : scanForward s = .found q)
    (hlt : s.ip.toNat < s.len.toNat) :
    s.ip.toNat + 1 < q.toNat ∧ q.toNat ≤ s.len.toNat ∧ progRead s (q.toNat - 1) = some closeByte := by
  obtain ⟨k, hlo, hhi, hb, rfl⟩ := scanForwardFrom_found h
  have hk : (BitVec.ofNat 17 (k + 1)).toNat = k + 1 := by
    have := s.len.isLt
    rw [BitVec.toNat_ofNat]
    omega
  rw [hk]
  exact ⟨by omega, by omega, hb⟩

/-- The target of a taken `]`: at least 1 and at most its own index. -/
theorem scanBackward_found {s : State} {q : Index} (h : scanBackward s = .found q) :
    0 < q.toNat ∧ q.toNat ≤ s.ip.toNat := by
  obtain ⟨j, hj, -, rfl⟩ := scanBackwardFrom_found h
  have hk : (BitVec.ofNat 17 (j + 1)).toNat = j + 1 := by
    have := s.ip.isLt
    rw [BitVec.toNat_ofNat]
    omega
  rw [hk]
  exact ⟨by omega, by omega⟩

/-- Rule R81: an instruction that retires below LEN leaves IP at most at LEN. -/
theorem NextIp.le_len {i : Instr} {s : State} {q : Index} (h : NextIp i s q)
    (hlt : s.ip.toNat < s.len.toNat) : q.toNat ≤ s.len.toNat := by
  obtain rfl | ⟨-, -, hq⟩ | ⟨-, -, hq⟩ := h
  · exact (toNat_advanceIp_ip hlt).trans_le hlt
  · exact (scanForward_found hq hlt).2.1
  · exact (scanBackward_found hq).2.trans hlt.le

/-- A step never takes IP past LEN. -/
theorem step_ip_le_len {s t : State} (h : step s = .next t) (hip : s.ip.toNat ≤ s.len.toNat) :
    t.ip.toNat ≤ t.len.toNat := by
  obtain ⟨rfl, -⟩ | ⟨-, hlt, b, -, hexec⟩ := step_cases h
  · exact hip
  obtain ⟨-, -, rfl⟩ | ⟨-, rfl⟩ | hret := exec_ends hexec
  · exact hip
  · exact hip
  · rw [hret.store.2.1]
    exact hret.ip.le_len hlt

/-! ### When a step completes -/

/-- An instruction stops only where its scan reads an unspecified byte. -/
theorem exec_completes (i : Instr) {s : State} (hf : scanForward s ≠ .unspecified)
    (hb : scanBackward s ≠ .unspecified) : ∃ t, exec i s = .next t := by
  have jump : ∀ r, r ≠ Scan.unspecified → ∃ t, jumpByScan s r = .next t := by
    rintro (q | _ | _) hr
    · exact ⟨_, rfl⟩
    · exact ⟨_, rfl⟩
    · exact absurd rfl hr
  cases i with
  | inc | dec | right | left | out | nop b => exact ⟨_, rfl⟩
  | inp =>
    cases hin : s.input with
    | nil => exact ⟨_, exec_inp_nil s hin⟩
    | cons b rest => exact ⟨_, exec_inp_cons s hin⟩
  | jz =>
    by_cases hz : memRead s (currentAddr s) = 0
    · rw [exec_jz_zero s hz]
      exact jump _ hf
    · exact ⟨_, exec_jz_nonzero s hz⟩
  | jnz =>
    by_cases hz : memRead s (currentAddr s) = 0
    · exact ⟨_, exec_jnz_zero s hz⟩
    · rw [exec_jnz_nonzero s hz]
      exact jump _ hb

/-- Decision D10: with a fatal condition a step is a no-op. -/
theorem step_of_cause_ne_none {s : State} (h : s.cause ≠ .none) : step s = .next s := by
  have hidle : stepAction s = .idle := if_pos h
  rw [step, hidle]

/-- Where IP is at most LEN and every byte below LEN is specified, a step answers a next state. -/
theorem step_completes {s : State} (hip : s.ip.toNat ≤ s.len.toNat) (hspec : s.Specified) :
    ∃ t, step s = .next t := by
  by_cases hc : s.cause = .none
  · obtain heq | hlt := Nat.eq_or_lt_of_le hip
    · exact ⟨s, step_of_ip_eq_len (BitVec.eq_of_toNat_eq heq)⟩
    · obtain ⟨b, hb⟩ := Option.isSome_iff_exists.1 (hspec _ hlt)
      rw [step_eq_exec hc hlt hb]
      exact exec_completes _
        (scanForwardFrom_ne_unspecified 0 fun i _ hi => hspec i (by omega))
        (scanBackwardFrom_ne_unspecified 0 fun i hi => hspec i (by omega))
  · exact ⟨s, step_of_cause_ne_none hc⟩

/-! ### The obligations -/

/-- Settles O25: of the three ends only a failed scan changes CAUSE, and it changes nothing else. -/
theorem unbalancedBracketIsPrecise : Obligations.UnbalancedBracketIsPrecise := by
  intro s t h hc ht
  obtain ⟨rfl, -⟩ | ⟨-, -, b, -, hexec⟩ := step_cases h
  · cases hc.symm.trans ht
  obtain ⟨-, -, rfl⟩ | ⟨-, rfl⟩ | hret := exec_ends hexec
  · cases hc.symm.trans ht
  · rfl
  · cases (hret.cause.trans hc).symm.trans ht

/-- Settles O27: a bracket that jumps and leaves no fatal condition sets IP to the answer of its scan. -/
theorem jumpTargetsStayInProgram : Obligations.JumpTargetsStayInProgram := by
  intro s t hc hlt h ht
  refine ⟨fun hb hz => ?_, fun hb hz => ?_⟩
  · have hexec : exec .jz s = .next t := (step_eq_exec hc hlt hb).symm.trans h
    rw [exec_jz_zero s hz] at hexec
    obtain ⟨q, hq, rfl⟩ | ⟨-, rfl⟩ := jumpByScan_cases hexec
    · obtain ⟨hlo, hhi, -⟩ := scanForward_found hq hlt
      exact ⟨hlo, hhi⟩
    · cases ht
  · have hexec : exec .jnz s = .next t := (step_eq_exec hc hlt hb).symm.trans h
    rw [exec_jnz_nonzero s hz] at hexec
    obtain ⟨q, hq, rfl⟩ | ⟨-, rfl⟩ := jumpByScan_cases hexec
    · obtain ⟨hpos, hle⟩ := scanBackward_found hq
      refine ⟨hpos, hle, fun hhalt => ?_⟩
      have hip : q = s.len := ((runState_eq_halted_iff _).1 hhalt).2.2
      rw [hip] at hle
      exact absurd hle (not_le.2 hlt)
    · cases ht

end Sys2Proof.Machine
end

section
/-! PROOFS. The invariant of 10_state.md section 11 under STEP and under the host's other operations, and the
ends of a run. -/

namespace Sys2Proof.Machine

/-! ### The invariant under one instruction -/

section
variable {i : Instr} {s t : State}

/-- A program that holds a byte below LEN was loaded. -/
theorem State.Inv.loaded_of_lt (h : s.Inv) (hlt : s.ip.toNat < s.len.toNat) : s.loaded = true := by
  obtain ⟨⟨-, -, -, -, hunloaded, -⟩, -, -⟩ := h
  by_contra hl
  have hlen := (hunloaded (by simpa using hl)).1
  rw [hlen] at hlt
  exact Nat.not_lt_zero _ hlt

/-- An engine that waits stands at a `.`. -/
theorem State.Inv.decode_of_await (h : s.Inv) (ha : s.await = true) {b : Byte}
    (hb : progRead s s.ip.toNat = some b) : decode b = .inp := by
  obtain ⟨⟨-, hawait, -⟩, -, -⟩ := h
  have hbyte : b = 0x2E := Option.some.inj (hb.symm.trans (hawait ha).2.2)
  rw [hbyte]
  rfl

theorem causeCode_ne_three (c : Cause) : causeCode c ≠ 3 := by
  cases c <;> decide

theorem SameProgramStore.specified (h : SameProgramStore s t) (hs : s.Specified) : t.Specified := by
  obtain ⟨hprog, hlen, -⟩ := h
  intro n hn
  rw [progRead, hprog]
  exact hs n (hlen ▸ hn)

/-- An instruction that retires keeps the invariant: no fatal condition stands, nothing waits, and IP is at
most LEN. -/
theorem Retires.inv (hret : Retires i s t) (h : s.Inv) (hc : s.cause = .none)
    (hlt : s.ip.toNat < s.len.toNat) {b : Byte} (hb : progRead s s.ip.toNat = some b)
    (hi : decode b = i) : t.Inv := by
  have hloaded := h.loaded_of_lt hlt
  have hwait := fun ha => h.decode_of_await ha hb
  obtain ⟨⟨⟨-, hcap⟩, -⟩, ⟨htape, hprogwf⟩, hspec⟩ := h
  have ht := hret.cause.trans hc
  have hta : t.await = false := by
    rw [hret.await]
    split
    case isTrue => rfl
    case isFalse hne => exact Bool.eq_false_iff.2 fun ha => hne (hi.symm.trans (hwait ha))
  obtain ⟨hprog, hlen, hl⟩ := hret.store
  have hip : t.ip.toNat ≤ t.len.toNat := hlen ▸ hret.ip.le_len hlt
  refine ⟨⟨⟨hip, hlen ▸ hcap⟩, ?_, ?_, ?_, ?_, causeCode_ne_three _⟩,
    ⟨hret.tape htape, hprog ▸ hprogwf⟩, hret.store.specified hspec⟩
  · simp [hta]
  · simp [ht]
  · simp [ht]
  · simp [hl, hloaded]

/-- Waiting keeps the invariant: the engine stands at the `.` it runs. -/
theorem State.Inv.setAwait (h : s.Inv) (hc : s.cause = .none) (hlt : s.ip.toNat < s.len.toNat)
    (hb : progRead s s.ip.toNat = some 0x2E) : (s.setAwait true).Inv := by
  have hloaded := h.loaded_of_lt hlt
  obtain ⟨⟨hbound, -, hub, hce, -, -⟩, hcanon, hspec⟩ := h
  refine ⟨⟨hbound, fun _ => ⟨hc, hlt, hb⟩, hub, hce, ?_, causeCode_ne_three _⟩, hcanon, hspec⟩
  simp [hloaded]

/-- Raising UnbalancedBracket keeps the invariant: the engine stands at the bracket. -/
theorem State.Inv.setCause_unbalanced (h : s.Inv) (hlt : s.ip.toNat < s.len.toNat)
    (hb : progRead s s.ip.toNat = some openByte ∨ progRead s s.ip.toNat = some closeByte) :
    (s.setCause .unbalancedBracket).Inv := by
  have hloaded := h.loaded_of_lt hlt
  have hwait : s.await = false := by
    refine Bool.eq_false_iff.2 fun ha => ?_
    obtain hb | hb := hb <;> cases h.decode_of_await ha hb
  obtain ⟨⟨hbound, -⟩, hcanon, hspec⟩ := h
  refine ⟨⟨hbound, ?_, fun _ => ⟨hlt, hb⟩, ?_, ?_, causeCode_ne_three _⟩, hcanon, hspec⟩
  · simp [hwait]
  · simp
  · simp [hloaded]

/-- The byte of a bracket whose scan fails. -/
theorem ScanFails.byte {b : Byte} (h : ScanFails (decode b) s) : b = openByte ∨ b = closeByte := by
  obtain ⟨hi, -⟩ | ⟨hi, -⟩ := h
  · exact .inl (eq_encode_of_decode_eq hi)
  · exact .inr (eq_encode_of_decode_eq hi)

end

/-- Every step keeps the invariant, end by end. -/
theorem step_inv {s t : State} (hinv : s.Inv) (h : step s = .next t) : t.Inv := by
  obtain ⟨rfl, -⟩ | ⟨hc, hlt, b, hb, hexec⟩ := step_cases h
  · exact hinv
  obtain ⟨hi, -, rfl⟩ | ⟨hfail, rfl⟩ | hret := exec_ends hexec
  · exact hinv.setAwait hc hlt (hb.trans (congrArg some (eq_encode_of_decode_eq hi)))
  · exact hinv.setCause_unbalanced hlt
      (hfail.byte.imp (fun e => hb.trans (congrArg some e)) fun e => hb.trans (congrArg some e))
  · exact hret.inv hinv hc hlt hb rfl

/-! ### The invariant under the host's other operations -/

theorem reset_inv : State.reset.Inv := by decide

/-- The host's two sequences are outside the invariant. -/
theorem State.Inv.of_engine_eq {s : State} (h : s.Inv) (inp out : List Byte) :
    State.Inv { s with input := inp, output := out } := h

/-- The success path of LOAD keeps the invariant. -/
theorem load_success_inv {s : State} {bytes : List Byte} (h : s.Inv) (hl : s.loaded = false)
    (hn : bytes.length ≤ 65536) :
    State.Inv { s with prog := programCells 0 bytes, len := BitVec.ofNat 17 bytes.length, ip := 0,
                       loaded := true } := by
  obtain ⟨⟨-, -, -, -, hunloaded, -⟩, ⟨htape, -⟩, -⟩ := h
  obtain ⟨-, -, hc, ha⟩ := hunloaded hl
  have hlen := toNat_ofNat_index hn
  refine ⟨⟨⟨Nat.zero_le _, hlen.trans_le hn⟩, ?_, ?_, ?_, ?_, causeCode_ne_three _⟩,
    ⟨htape, programCells_wf bytes 0 (by omega)⟩, fun i hi => ?_⟩
  · simp [ha]
  · simp [hc]
  · simp [hc]
  · simp
  · have hi : i < bytes.length := hlen ▸ hi
    simp [progRead, lookup_programCells, hi]

/-- The failure path of LOAD keeps the invariant: LEN = 0 leaves no byte to specify. -/
theorem load_failure_inv {s : State} (h : s.Inv) (hl : s.loaded = false) :
    State.Inv { s with len := 0, ip := 0, loaded := true, cause := .capacityExceeded } := by
  obtain ⟨⟨-, -, -, -, hunloaded, -⟩, hcanon, -⟩ := h
  obtain ⟨-, -, -, ha⟩ := hunloaded hl
  refine ⟨⟨⟨le_rfl, Nat.zero_le _⟩, ?_, ?_, ?_, ?_, causeCode_ne_three _⟩, hcanon,
    fun i hi => absurd hi (Nat.not_lt_zero i)⟩
  · simp [ha]
  · simp
  · simp
  · simp

theorem load_inv {bytes : List Byte} {s t : State} (hinv : s.Inv) (h : load bytes s = .next t) :
    t.Inv := by
  obtain ⟨hl, ⟨hn, rfl⟩ | ⟨-, rfl⟩⟩ := load_cases h
  · exact load_success_inv hinv hl hn
  · exact load_failure_inv hinv hl

/-- Every host operation keeps the invariant. -/
theorem hostOp_inv {o : HostOp} {s t : State} (hinv : s.Inv) (h : hostOp o s = .next t) : t.Inv := by
  cases o with
  | reset => cases h; exact reset_inv.of_engine_eq s.input s.output
  | load bytes => exact load_inv hinv h
  | step => exact step_inv hinv h
  | offer b => cases h; exact hinv.of_engine_eq _ s.output
  | query q => cases h; exact hinv

/-! ### The end of a run -/

/-- A state that a step leaves unchanged stays unchanged for any number of steps. -/
theorem core_run_of_step_self {s : State} (h : step s = .next s) (n : Nat) :
    Host.Core.run Sys2Proof.core n s = .next s := by
  induction n with
  | zero => rfl
  | succ n ih => rw [core_run_succ n h, ih]

theorem step_of_ended {s : State} (h : Ended s) : step s = .next s := by
  obtain hhalt | hfault := h
  · exact step_of_ip_eq_len ((runState_eq_halted_iff s).1 hhalt).2.2
  · exact step_of_cause_ne_none ((runState_eq_fault_iff s).1 hfault)

/-- With a fatal condition only RESET writes CAUSE: a state that no LOAD has touched has none. -/
theorem hostOp_cause_of_ne_none {o : HostOp} {s t : State} (hinv : s.Inv) (hc : s.cause ≠ .none)
    (hr : o ≠ .reset) (h : hostOp o s = .next t) : t.cause = s.cause := by
  cases o with
  | reset => exact absurd rfl hr
  | load bytes =>
    obtain ⟨hl, -⟩ := load_cases h
    obtain ⟨⟨-, -, -, -, hunloaded, -⟩, -⟩ := hinv
    exact absurd (hunloaded hl).2.2.1 hc
  | step => cases (step_of_cause_ne_none hc).symm.trans h; rfl
  | offer b => cases h; rfl
  | query q => cases h; rfl

/-! ### The obligations -/

/-- Settles O20: a step does nothing, waits at a `.`, raises UnbalancedBracket at a bracket, or retires, and
each of these keeps every item. -/
theorem stepKeepsInvariant : Obligations.StepKeepsInvariant := fun _ _ hinv h => step_inv hinv h

/-- Settles O19: the invariant bounds IP by LEN and specifies every byte below LEN. -/
theorem stepCompletesOnInvariantStates : Obligations.StepCompletesOnInvariantStates := by
  rintro s ⟨⟨⟨hip, -⟩, -⟩, -, hspec⟩
  exact step_completes hip hspec

/-- Settles O21: RESET answers the reset state, LOAD its two paths, and the rest leave the engine as it is. -/
theorem hostOperationsKeepInvariant : Obligations.HostOperationsKeepInvariant :=
  fun _ _ _ _ hinv h => hostOp_inv hinv h

/-- Settles O22: by evaluating the items on the reset state. -/
theorem resetMeetsInvariant : Obligations.ResetMeetsInvariant := reset_inv

/-- Settles O17: a step of an ended run answers the state itself. -/
theorem endedRunNeverChanges : Obligations.EndedRunNeverChanges :=
  fun _ n h => core_run_of_step_self (step_of_ended h) n

/-- Settles O18: STEP checks CAUSE first, and a LOAD needs LOADED = 0, where CAUSE is NONE. -/
theorem fatalConditionIsSticky : Obligations.FatalConditionIsSticky :=
  ⟨fun _ hc => step_of_cause_ne_none hc, fun _ _ _ hinv hc hr h => hostOp_cause_of_ne_none hinv hc hr h⟩

end Sys2Proof.Machine
end

section
/-! PROOFS. A balanced program never raises UnbalancedBracket (43_loop.md section 2). -/

namespace Sys2Proof.Machine

/-- The engine runs the program: it holds it, no fatal condition stands and IP lies within it. -/
structure RunsProgram (bs : List Byte) (s : State) : Prop where
  holds : HoldsProgram s bs
  cause : s.cause = .none
  ip : s.ip.toNat ≤ s.len.toNat

section
variable {s t : State} {bs : List Byte}

theorem HoldsProgram.specified (h : HoldsProgram s bs) : s.Specified := by
  obtain ⟨hlen, hread⟩ := h
  intro i hi
  have hi : i < bs.length := hlen ▸ hi
  rw [hread i hi, List.getElem?_eq_getElem hi]
  rfl

theorem HoldsProgram.of_sameProgramStore (h : HoldsProgram s bs) (hst : SameProgramStore s t) :
    HoldsProgram t bs := by
  obtain ⟨hprog, hlen, -⟩ := hst
  refine ⟨hlen ▸ h.1, fun i hi => ?_⟩
  rw [progRead, hprog]
  exact h.2 i hi

/-- In a balanced program the scan of a bracket at IP finds its match. -/
theorem BracketsBalanced.not_scanFails (hbal : BracketsBalanced bs) (hs : HoldsProgram s bs) {b : Byte}
    (hb : bs[s.ip.toNat]? = some b) : ¬ ScanFails (decode b) s := by
  rintro (⟨hi, -, hscan⟩ | ⟨hi, -, hscan⟩)
  · obtain rfl : b = openByte := eq_encode_of_decode_eq hi
    obtain ⟨k, hk⟩ := hbal.exists_close hb
    cases hscan.symm.trans (scanForward_of_matches hs hk)
  · obtain rfl : b = closeByte := eq_encode_of_decode_eq hi
    obtain ⟨j, hj⟩ := hbal.exists_open hb
    cases hscan.symm.trans (scanBackward_of_matches hs hj)

/-- A step of a balanced program raises nothing. -/
theorem RunsProgram.step_cause (hr : RunsProgram bs s) (hbal : BracketsBalanced bs)
    (h : step s = .next t) : t.cause = .none := by
  obtain ⟨rfl, -⟩ | ⟨hc, hlt, b, hb, hexec⟩ := step_cases h
  · exact hr.cause
  obtain ⟨-, -, rfl⟩ | ⟨hfail, -⟩ | hret := exec_ends hexec
  · exact hc
  · have hbyte := (hr.holds.2 _ (hr.holds.1 ▸ hlt)).symm.trans hb
    exact absurd hfail (hbal.not_scanFails hr.holds hbyte)
  · exact hret.cause.trans hc

/-- One step of a balanced program answers a next state and the engine still runs the program. -/
theorem RunsProgram.step (hr : RunsProgram bs s) (hbal : BracketsBalanced bs) :
    ∃ t, step s = .next t ∧ RunsProgram bs t := by
  obtain ⟨t, ht⟩ := step_completes hr.ip hr.holds.specified
  exact ⟨t, ht, hr.holds.of_sameProgramStore (step_sameProgramStore ht), hr.step_cause hbal ht,
    step_ip_le_len ht hr.ip⟩

/-- Any number of steps of a balanced program. -/
theorem RunsProgram.run (hr : RunsProgram bs s) (hbal : BracketsBalanced bs) (n : Nat) :
    ∃ t, Host.Core.run Sys2Proof.core n s = .next t ∧ RunsProgram bs t := by
  induction n generalizing s with
  | zero => exact ⟨s, rfl, hr⟩
  | succ n ih =>
    obtain ⟨u, hu, hru⟩ := hr.step hbal
    rw [core_run_succ n hu]
    exact ih hru

end

/-! ### The obligations -/

/-- Settles O51, by induction on the number of steps: a balanced program gives every bracket a match, so no
scan leaves the bounds, and no target passes LEN. -/
theorem balancedProgramNeverFaults : Obligations.BalancedProgramNeverFaults := by
  intro s bs n hs hbal hc hip
  obtain ⟨t, ht, hr⟩ := RunsProgram.run ⟨hs, hc, hip⟩ hbal n
  exact ⟨t, ht, hr.cause, hr.holds, hr.ip⟩

end Sys2Proof.Machine
end

section
/-! PROOFS. The stepper state machine: its transition table, how a run halts, and STATUS (40_stepper.md sections
1 and 2, 10_state.md section 6). -/

namespace Sys2Proof.Machine

/-! ### A step that dispatches an instruction -/

section
variable {s t : State} {b : Byte}

/-- A step with no fatal condition and IP not at LEN runs the byte at IP. -/
theorem step_dispatches (h : step s = .next t) (hc : s.cause = .none) (hne : s.ip ≠ s.len) :
    s.ip.toNat < s.len.toNat ∧ ∃ b, progRead s s.ip.toNat = some b ∧ exec (decode b) s = .next t := by
  obtain ⟨-, hno⟩ | ⟨-, hlt, hb⟩ := step_cases h
  · exact absurd hno (by simp [hc, hne])
  · exact ⟨hlt, hb⟩

theorem decode_eq_inp_iff : decode b = .inp ↔ b = 0x2E :=
  ⟨fun h => eq_encode_of_decode_eq h, fun h => h ▸ rfl⟩

theorem decode_eq_jz_iff : decode b = .jz ↔ b = 0x5B :=
  ⟨fun h => eq_encode_of_decode_eq h, fun h => h ▸ rfl⟩

theorem decode_eq_jnz_iff : decode b = .jnz ↔ b = 0x5D :=
  ⟨fun h => eq_encode_of_decode_eq h, fun h => h ▸ rfl⟩

/-- An instruction leaves AWAIT set exactly when it waits for input, where nothing waited before. -/
theorem exec_await_iff {i : Instr} (h : exec i s = .next t) (ha : s.await = false) :
    t.await = true ↔ i = .inp ∧ s.input = [] := by
  obtain ⟨hi, hin, rfl⟩ | ⟨hfail, rfl⟩ | hret := exec_ends h
  · simp [hi, hin]
  · have hne : i ≠ .inp := by
      rintro rfl
      exact not_scanFails_of_not_bracket (i := .inp) s nofun nofun hfail
    simp [ha, hne]
  · have hta : t.await = false := by simp [hret.await, ha]
    simp only [hta, Bool.false_eq_true, false_iff, not_and]
    exact hret.input

/-- An instruction raises exactly when its scan fails, where no fatal condition stood before. -/
theorem exec_raises_iff {i : Instr} (h : exec i s = .next t) (hc : s.cause = .none) :
    t.cause ≠ .none ↔ ScanFails i s := by
  obtain ⟨rfl, -, rfl⟩ | ⟨hfail, rfl⟩ | hret := exec_ends h
  · simp [hc, not_scanFails_of_not_bracket]
  · simp [hfail]
  · simp [hret.cause, hc, hret.scan]

/-- A step raises no other condition than UnbalancedBracket. -/
theorem step_cause_ne_none_iff (h : step s = .next t) (hc : s.cause = .none) :
    t.cause ≠ .none ↔ t.cause = .unbalancedBracket := by
  obtain hkeep | ⟨hub, -⟩ := step_cause_cases h
  · simp [hkeep, hc]
  · simp [hub]

end

/-! ### The rows of a step -/

section
variable {s t : State}

/-- Only CapacityExceeded stands with IP = LEN: a waiting engine stands at its `.`, an unbalanced one at its
bracket, both short of LEN. -/
theorem State.Inv.halted_iff (h : s.Inv) (hc : s.cause ≠ .capacityExceeded) :
    runState s = .halted ↔ s.ip = s.len := by
  obtain ⟨⟨-, hawait, hub, -⟩, -, -⟩ := h
  rw [runState_eq_halted_iff]
  refine ⟨fun ⟨_, _, hip⟩ => hip, fun hip => ?_⟩
  have hnlt : ¬ s.ip.toNat < s.len.toNat := by simp [hip]
  refine ⟨?_, ?_, hip⟩
  · cases hcause : s.cause with
    | none => rfl
    | capacityExceeded => exact absurd hcause hc
    | unbalancedBracket => exact absurd (hub hcause).1 hnlt
  · exact Bool.eq_false_iff.2 fun ha => hnlt (hawait ha).2.1

/-- RUNNING is what is left of the four run states. -/
theorem State.Inv.running_iff (h : s.Inv) :
    runState s = .running ↔
      runState s ≠ .awaitingInput ∧ runState s ≠ .fault ∧ s.ip.toNat < s.len.toNat := by
  obtain ⟨⟨⟨hip, -⟩, -⟩, -, -⟩ := h
  have hlt : s.ip.toNat < s.len.toNat ↔ s.ip ≠ s.len := by
    rw [Ne, ← BitVec.toNat_inj]
    omega
  simp only [runState_eq_running_iff, runState_eq_awaitingInput_iff, runState_eq_fault_iff, ne_eq, hlt]
  cases s.cause <;> simp

/-- The row AWAITING_INPUT with no byte: the step waits again. -/
theorem step_awaiting_nil (hinv : s.Inv) (h : step s = .next t) (hs : runState s = .awaitingInput)
    (hin : s.input = []) : runState t = .awaitingInput := by
  obtain ⟨hc, ha⟩ := (runState_eq_awaitingInput_iff s).1 hs
  obtain ⟨⟨-, hawait, -⟩, -, -⟩ := hinv
  obtain ⟨-, hlt, hb⟩ := hawait ha
  have hexec : exec .inp s = .next t := (step_eq_exec hc hlt hb).symm.trans h
  cases (exec_inp_nil s hin).symm.trans hexec
  exact (runState_eq_awaitingInput_iff _).2 ⟨hc, rfl⟩

/-- The row AWAITING_INPUT with a byte: the input retires. -/
theorem step_awaiting_cons (hinv : s.Inv) (h : step s = .next t) (hs : runState s = .awaitingInput)
    (hin : s.input ≠ []) : runState t = if s.ip + 1 = s.len then .halted else .running := by
  obtain ⟨hc, ha⟩ := (runState_eq_awaitingInput_iff s).1 hs
  obtain ⟨⟨-, hawait, -⟩, -, -⟩ := hinv
  obtain ⟨-, hlt, hb⟩ := hawait ha
  obtain ⟨b, rest, hcons⟩ := List.exists_cons_of_ne_nil hin
  have hexec : exec .inp s = .next t := (step_eq_exec hc hlt hb).symm.trans h
  cases (exec_inp_cons s hcons).symm.trans hexec
  split
  case isTrue hip => exact (runState_eq_halted_iff _).2 ⟨hc, rfl, hip⟩
  case isFalse hip => exact (runState_eq_running_iff _).2 ⟨hc, rfl, hip⟩

/-- The row RUNNING to AWAITING_INPUT. -/
theorem step_running_awaits_iff (hinv : s.Inv) (h : step s = .next t) (hs : runState s = .running) :
    runState t = .awaitingInput ↔ progRead s s.ip.toNat = some 0x2E ∧ s.input = [] := by
  obtain ⟨hc, ha, hne⟩ := (runState_eq_running_iff s).1 hs
  obtain ⟨-, b, hb, hexec⟩ := step_dispatches h hc hne
  obtain ⟨⟨-, hawait, -⟩, -, -⟩ := step_inv hinv h
  rw [runState_eq_awaitingInput_iff, hb, Option.some_inj, ← decode_eq_inp_iff, ← exec_await_iff hexec ha]
  exact ⟨fun ⟨_, hta⟩ => hta, fun hta => ⟨(hawait hta).1, hta⟩⟩

/-- The row RUNNING to FAULT, by the condition that stands. -/
theorem step_running_fault_iff (h : step s = .next t) (hs : runState s = .running) :
    runState t = .fault ↔ t.cause = .unbalancedBracket := by
  obtain ⟨hc, -, -⟩ := (runState_eq_running_iff s).1 hs
  rw [runState_eq_fault_iff, step_cause_ne_none_iff h hc]

/-- The row RUNNING to FAULT, by the instruction that raises. -/
theorem step_running_fault_iff_scan (h : step s = .next t) (hs : runState s = .running) :
    runState t = .fault ↔
      (progRead s s.ip.toNat = some 0x5B ∧ memRead s (currentAddr s) = 0 ∧ scanForward s = .unbalanced) ∨
      (progRead s s.ip.toNat = some 0x5D ∧ memRead s (currentAddr s) ≠ 0 ∧
        scanBackward s = .unbalanced) := by
  obtain ⟨hc, -, hne⟩ := (runState_eq_running_iff s).1 hs
  obtain ⟨-, b, hb, hexec⟩ := step_dispatches h hc hne
  rw [runState_eq_fault_iff, exec_raises_iff hexec hc, hb, Option.some_inj, Option.some_inj,
    ← decode_eq_jz_iff, ← decode_eq_jnz_iff]
  rfl

/-- The row RUNNING to HALTED. -/
theorem step_running_halted_iff (hinv : s.Inv) (h : step s = .next t) (hs : runState s = .running) :
    runState t = .halted ↔ t.ip = t.len := by
  obtain ⟨hc, -, -⟩ := (runState_eq_running_iff s).1 hs
  refine (step_inv hinv h).halted_iff fun hcap => ?_
  have hub := (step_cause_ne_none_iff h hc).1 (by simp [hcap])
  cases hcap.symm.trans hub

theorem step_ended {s t : State} (h : step s = .next t) (hs : Ended s) : t = s := by
  cases (step_of_ended hs).symm.trans h
  rfl

/-- The rows of LOAD. -/
theorem load_runState {bytes : List Byte} (hinv : s.Inv) (h : load bytes s = .next t) :
    (runState t = if 65536 < bytes.length then .fault else if bytes = [] then .halted else .running) ∧
    (65536 < bytes.length → t.cause = .capacityExceeded) := by
  obtain ⟨⟨-, -, -, -, hunloaded, -⟩, -, -⟩ := hinv
  obtain ⟨hl, ⟨hn, rfl⟩ | ⟨hn, rfl⟩⟩ := load_cases h
  · obtain ⟨-, -, hc, ha⟩ := hunloaded hl
    refine ⟨?_, fun hbig => absurd hn (not_le.2 hbig)⟩
    rw [if_neg (not_lt.2 hn)]
    split
    case isTrue hnil => exact (runState_eq_halted_iff _).2 ⟨hc, ha, by simp [hnil]⟩
    case isFalse hne =>
      refine (runState_eq_running_iff _).2 ⟨hc, ha, fun hip => hne ?_⟩
      have hlen : 0 = bytes.length := (congrArg BitVec.toNat hip).trans (toNat_ofNat_index hn)
      exact List.length_eq_zero_iff.1 hlen.symm
  · rw [if_pos hn]
    exact ⟨(runState_eq_fault_iff _).2 nofun, fun _ => rfl⟩

end

/-! ### Halting -/

/-- A step that halts the engine retires an instruction that takes IP to LEN. -/
theorem step_halts {s t : State} (hinv : s.Inv) (hs : runState s ≠ .halted) (h : step s = .next t)
    (ht : runState t = .halted) :
    t.ip = s.len ∧ ∃ b, progRead s s.ip.toNat = some b ∧ s.ip.toNat < s.len.toNat ∧
      NextIp (decode b) s s.len := by
  obtain ⟨hc, ha, hip⟩ := (runState_eq_halted_iff t).1 ht
  obtain ⟨rfl, -⟩ | ⟨-, hlt, b, hb, hexec⟩ := step_cases h
  · exact absurd ht hs
  obtain ⟨-, -, rfl⟩ | ⟨-, rfl⟩ | hret := exec_ends hexec
  · cases ha
  · cases hc
  · obtain ⟨-, hlen, -⟩ := hret.store
    have hip : t.ip = s.len := hip.trans hlen
    exact ⟨hip, b, hb, hlt, hip ▸ hret.ip⟩

/-- IP reaches LEN by the advance from LEN - 1 or by a `[` that jumps past a `]` at LEN - 1. -/
theorem NextIp.len_cases {s : State} {b : Byte} (h : NextIp (decode b) s s.len)
    (hlt : s.ip.toNat < s.len.toNat) :
    s.ip.toNat + 1 = s.len.toNat ∨
    (b = openByte ∧ memRead s (currentAddr s) = 0 ∧ progRead s (s.len.toNat - 1) = some closeByte) := by
  obtain hadv | ⟨hi, hz, hq⟩ | ⟨-, -, hq⟩ := h
  · left
    rw [← toNat_advanceIp_ip hlt, advanceIp_ip, hadv]
  · exact .inr ⟨eq_encode_of_decode_eq hi, hz, (scanForward_found hq hlt).2.2⟩
  · exact absurd (scanBackward_found hq).2 (not_le.2 hlt)

/-- Once a loaded engine is HALTED no operation but RESET leaves that state. -/
theorem hostOp_halted {o : HostOp} {s t : State} (hl : s.loaded = true) (hs : runState s = .halted)
    (hr : o ≠ .reset) (h : hostOp o s = .next t) : runState t = .halted := by
  cases o with
  | reset => exact absurd rfl hr
  | load bytes =>
    obtain ⟨hunloaded, -⟩ := load_cases h
    cases hl.symm.trans hunloaded
  | step => exact step_ended h (.inl hs) ▸ hs
  | offer b => cases h; exact hs
  | query q => cases h; exact hs

/-! ### The layout of STATUS -/

/-- Where the four fields of STATUS lie, whatever they hold (rule R25). -/
theorem status_fields (l a : Bool) (c r : BitVec 2) :
    ((0 : BitVec 2) ++ BitVec.ofBool l ++ BitVec.ofBool a ++ c ++ r).extractLsb' 0 2 = r ∧
    ((0 : BitVec 2) ++ BitVec.ofBool l ++ BitVec.ofBool a ++ c ++ r).extractLsb' 2 2 = c ∧
    ((0 : BitVec 2) ++ BitVec.ofBool l ++ BitVec.ofBool a ++ c ++ r).getLsbD 4 = a ∧
    ((0 : BitVec 2) ++ BitVec.ofBool l ++ BitVec.ofBool a ++ c ++ r).getLsbD 5 = l ∧
    ((0 : BitVec 2) ++ BitVec.ofBool l ++ BitVec.ofBool a ++ c ++ r).extractLsb' 6 2 = 0 := by
  revert l a c r
  decide

theorem toNat_runStateCode (s : State) :
    (runStateCode (runState s)).toNat =
      if s.cause ≠ .none then 3 else if s.await = true then 2 else if s.ip = s.len then 1 else 0 := by
  unfold runState
  split_ifs <;> rfl

/-! ### The obligations -/

/-- Settles O23: an ended run keeps its state, an awaiting one runs its `.`, and from RUNNING each row is read
off the registers the run state is derived from. -/
theorem stepperTransitionTable : Obligations.StepperTransitionTable := by
  refine ⟨fun s t hinv h => ⟨fun hs => ?_, fun hs => ?_, step_awaiting_nil hinv h,
    step_awaiting_cons hinv h, fun hs => ⟨step_running_awaits_iff hinv h hs, step_running_fault_iff h hs,
      fun ht => ?_, step_running_fault_iff_scan h hs, step_running_halted_iff hinv h hs,
      (step_inv hinv h).running_iff⟩⟩,
    fun s t bytes => load_runState, fun s => ⟨rfl, rfl, rfl⟩⟩
  · exact step_ended h (.inl hs) ▸ hs
  · exact step_ended h (.inr hs) ▸ hs
  · exact ((step_running_fault_iff_scan h hs).1 ht).imp And.left And.left

/-- Settles O28: a step halts only by retiring with IP = LEN, and a HALTED engine steps to itself. -/
theorem haltingRule : Obligations.HaltingRule := by
  refine ⟨fun s t hinv hs h ht => ?_, fun o s t => hostOp_halted⟩
  obtain ⟨hip, b, hb, hlt, hnext⟩ := step_halts hinv hs h ht
  rw [hb, Option.some_inj]
  exact ⟨hip, hnext.len_cases hlt⟩

/-- Settles O40: the fields by their places in the byte, STATE by the order of its evaluation. -/
theorem statusLayout : Obligations.StatusLayout := by
  refine ⟨fun s => ?_, by decide⟩
  obtain ⟨hstate, hcause, hawait, hloaded, hzero⟩ :=
    status_fields s.loaded s.await (causeCode s.cause) (runStateCode (runState s))
  refine ⟨?_, ?_, hawait, hloaded, hzero⟩
  · exact (congrArg BitVec.toNat hstate).trans (toNat_runStateCode s)
  · refine (congrArg BitVec.toNat hcause).trans ?_
    cases s.cause <;> rfl

end Sys2Proof.Machine
end

section
/-! PROOFS. The I/O instructions, and which operations write AP and move bytes through the gateway (42_io.md
sections 1 and 2, 20_memory.md section 5, 10_state.md section 3). -/

namespace Sys2Proof.Machine

/-! ### The frames of the I/O instructions -/

theorem advanceIp_setOutput_frame (s : State) (v : List Byte) :
    advanceIp (s.setOutput v) = { s with output := v, ip := s.ip + 1 } := rfl

/-- The frame of `.` with a byte available. -/
theorem advanceIp_input_frame (s : State) (a : Int) (b : Byte) (rest : List Byte) :
    advanceIp ((memWrite (s.setInput rest) a b).setAwait false) =
      { s with tape := (memWrite (s.setInput rest) a b).tape, ip := s.ip + 1, await := false,
               input := rest } := rfl

/-! ### What one instruction writes of AP and of the host's sequences -/

section
variable {i : Instr} {s t : State}

/-- Only `>` and `<` write AP. -/
theorem exec_ap_cases (h : exec i s = .next t) :
    t.ap = s.ap ∨ (i = .right ∧ t.ap = s.ap + 1) ∨ (i = .left ∧ t.ap = s.ap - 1) := by
  rcases exec_cases h with ⟨v, -, rfl⟩ | ⟨v, rfl | rfl, -⟩ | ⟨-, rfl⟩ | ⟨-, -, rfl⟩ |
    ⟨b, rest, -, -, rfl⟩ | ⟨q, -, -, -, rfl⟩ | ⟨q, -, -, -, rfl⟩ | ⟨-, -, -, rfl⟩ | ⟨-, -, -, rfl⟩ | ⟨-, rfl⟩
  · exact .inl rfl
  · cases h; exact .inr (.inl ⟨rfl, rfl⟩)
  · cases h; exact .inr (.inr ⟨rfl, rfl⟩)
  all_goals exact .inl rfl

/-- Only `,` writes the output record, and it adds the current cell at the end. -/
theorem exec_output_cases (h : exec i s = .next t) :
    t.output = s.output ∨ (i = .out ∧ t.output = s.output ++ [memRead s (currentAddr s)]) := by
  rcases exec_cases h with ⟨v, -, rfl⟩ | ⟨v, -, rfl⟩ | ⟨hi, rfl⟩ | ⟨-, -, rfl⟩ | ⟨b, rest, -, -, rfl⟩ |
    ⟨q, -, -, -, rfl⟩ | ⟨q, -, -, -, rfl⟩ | ⟨-, -, -, rfl⟩ | ⟨-, -, -, rfl⟩ | ⟨-, rfl⟩
  iterate 2 exact .inl rfl
  · exact .inr ⟨hi, rfl⟩
  all_goals exact .inl rfl

/-- Only `.` writes the input source, and it moves the oldest byte into the current cell. -/
theorem exec_input_cases (h : exec i s = .next t) :
    t.input = s.input ∨
    (i = .inp ∧ ∃ b, s.input = b :: t.input ∧ memRead t (currentAddr t) = b) := by
  rcases exec_cases h with ⟨v, -, rfl⟩ | ⟨v, -, rfl⟩ | ⟨-, rfl⟩ | ⟨-, -, rfl⟩ | ⟨b, rest, hi, hin, rfl⟩ |
    ⟨q, -, -, -, rfl⟩ | ⟨q, -, -, -, rfl⟩ | ⟨-, -, -, rfl⟩ | ⟨-, -, -, rfl⟩ | ⟨-, rfl⟩
  iterate 4 exact .inl rfl
  · exact .inr ⟨hi, b, hin, memRead_memWrite_self (s.setInput rest) (currentAddr s) b⟩
  all_goals exact .inl rfl

end

/-! ### One host operation -/

/-- The step dispatches the given byte. -/
def Dispatches (s : State) (b : Byte) : Prop :=
  s.cause = .none ∧ s.ip.toNat < s.len.toNat ∧ progRead s s.ip.toNat = some b

theorem Dispatches.encode {s : State} {b : Byte} {i : Instr} (h : Dispatches s b) (hi : decode b = i) :
    Dispatches s (Sys2Proof.encode i) := by
  rw [← eq_encode_of_decode_eq hi]
  exact h

section
variable {o : HostOp} {s t : State}

/-- A step that changes the state runs an instruction. -/
theorem step_dispatches_of_ne (h : step s = .next t) (hne : t ≠ s) :
    ∃ b, Dispatches s b ∧ exec (decode b) s = .next t := by
  obtain ⟨heq, -⟩ | ⟨hc, hlt, b, hb, hexec⟩ := step_cases h
  · exact absurd heq hne
  · exact ⟨b, ⟨hc, hlt, hb⟩, hexec⟩

theorem hostOp_ap_cases (h : hostOp o s = .next t) (hne : t.ap ≠ s.ap) :
    o = .reset ∨ (o = .step ∧
      ((Dispatches s 0x3E ∧ t.ap = s.ap + 1) ∨ (Dispatches s 0x3C ∧ t.ap = s.ap - 1))) := by
  cases o with
  | reset => exact .inl rfl
  | load bytes => obtain ⟨-, ⟨-, rfl⟩ | ⟨-, rfl⟩⟩ := load_cases h <;> exact absurd rfl hne
  | step =>
    obtain ⟨b, hd, hexec⟩ := step_dispatches_of_ne h fun heq => hne (heq ▸ rfl)
    refine .inr ⟨rfl, ((exec_ap_cases hexec).resolve_left hne).imp ?_ ?_⟩
    · rintro ⟨hi, hap⟩
      exact ⟨hd.encode hi, hap⟩
    · rintro ⟨hi, hap⟩
      exact ⟨hd.encode hi, hap⟩
  | offer b => cases h; exact absurd rfl hne
  | query q => cases h; exact absurd rfl hne

theorem hostOp_output_cases (h : hostOp o s = .next t) :
    t.output = s.output ∨
    (o = .step ∧ Dispatches s 0x2C ∧ t.output = s.output ++ [memRead s (currentAddr s)]) := by
  cases o with
  | reset => cases h; exact .inl rfl
  | load bytes => obtain ⟨-, ⟨-, rfl⟩ | ⟨-, rfl⟩⟩ := load_cases h <;> exact .inl rfl
  | step =>
    obtain ⟨rfl, -⟩ | ⟨hc, hlt, b, hb, hexec⟩ := step_cases h
    · exact .inl rfl
    · refine (exec_output_cases hexec).imp_right ?_
      rintro ⟨hi, hout⟩
      exact ⟨rfl, Dispatches.encode ⟨hc, hlt, hb⟩ hi, hout⟩
  | offer b => cases h; exact .inl rfl
  | query q => cases h; exact .inl rfl

theorem hostOp_input_cases (h : hostOp o s = .next t) :
    (t.input = s.input ∧ offered [o] = []) ∨ (∃ b, o = .offer b ∧ t.input = s.input ++ [b]) ∨
    (o = .step ∧ Dispatches s 0x2E ∧ ∃ b, s.input = b :: t.input ∧ memRead t (currentAddr t) = b) := by
  cases o with
  | reset => cases h; exact .inl ⟨rfl, rfl⟩
  | load bytes => obtain ⟨-, ⟨-, rfl⟩ | ⟨-, rfl⟩⟩ := load_cases h <;> exact .inl ⟨rfl, rfl⟩
  | step =>
    obtain ⟨rfl, -⟩ | ⟨hc, hlt, b, hb, hexec⟩ := step_cases h
    · exact .inl ⟨rfl, rfl⟩
    · refine (exec_input_cases hexec).imp (fun hin => ⟨hin, rfl⟩) ?_
      rintro ⟨hi, hin⟩
      exact .inr ⟨rfl, Dispatches.encode ⟨hc, hlt, hb⟩ hi, hin⟩
  | offer b => cases h; exact .inr (.inl ⟨b, rfl, rfl⟩)
  | query q => cases h; exact .inl ⟨rfl, rfl⟩

/-- A host operation only adds to the end of the output record. -/
theorem hostOp_output_grows (h : hostOp o s = .next t) : ∃ emitted, t.output = s.output ++ emitted := by
  obtain hout | ⟨-, -, hout⟩ := hostOp_output_cases h
  · exact ⟨[], by rw [hout, List.append_nil]⟩
  · exact ⟨_, hout⟩

/-- A host operation consumes the oldest of the bytes that wait or that it offers. -/
theorem hostOp_input_order (h : hostOp o s = .next t) :
    ∃ consumed, s.input ++ offered [o] = consumed ++ t.input := by
  obtain ⟨hin, hoff⟩ | ⟨b, rfl, hin⟩ | ⟨rfl, -, b, hin, -⟩ := hostOp_input_cases h
  · exact ⟨[], by rw [hin, hoff, List.append_nil, List.nil_append]⟩
  · exact ⟨[], hin.symm⟩
  · exact ⟨[b], by rw [hin]; exact List.append_nil _⟩

end

/-! ### A sequence of host operations -/

theorem offered_cons (o : HostOp) (os : List HostOp) : offered (o :: os) = offered [o] ++ offered os := by
  cases o <;> rfl

/-- A run of a nonempty sequence is its first operation and the run of the rest. -/
theorem hostRun_cons {o : HostOp} {os : List HostOp} {s t : State} (h : hostRun (o :: os) s = .next t) :
    ∃ u, hostOp o s = .next u ∧ hostRun os u = .next t := by
  rw [hostRun] at h
  cases hu : hostOp o s with
  | next u => exact ⟨u, rfl, by rwa [hu] at h⟩
  | fault f => rw [hu] at h; cases h
  | refused r => rw [hu] at h; cases h

/-! ### The obligations -/

/-- Settles O8: one output event, then the advance of IP. -/
theorem outputInstruction : Obligations.OutputInstruction :=
  ⟨rfl, fun s => (exec_out s).trans (congrArg _ (advanceIp_setOutput_frame s _))⟩

/-- Settles O9: without a byte one write of AWAIT; with one, a write of the current cell and the advance. -/
theorem inputInstruction : Obligations.InputInstruction :=
  ⟨rfl, fun s hin => exec_inp_nil s hin, fun s b rest hin =>
    ⟨_, exec_inp_cons s hin, advanceIp_input_frame s _ b rest,
      memRead_memWrite_self (s.setInput rest) _ b, memWrite_keepsOtherCells (s.setInput rest) b⟩⟩

/-- Settles O29: beside RESET only a step that dispatches `>` or `<` writes AP. -/
theorem addressPointerWriters : Obligations.AddressPointerWriters := by
  intro o s t h hne
  refine (hostOp_ap_cases h hne).imp_right ?_
  rintro ⟨ho, ⟨⟨hc, hlt, hb⟩, hap⟩ | ⟨⟨hc, hlt, hb⟩, hap⟩⟩
  · exact ⟨ho, hc, hlt, .inl ⟨hb, hap⟩⟩
  · exact ⟨ho, hc, hlt, .inr ⟨hb, hap⟩⟩

/-- Settles O32: a step that dispatches `,` or `.` moves one byte, an offer adds one. -/
theorem gatewayWriters : Obligations.GatewayWriters := by
  refine fun o s t h => ⟨fun hne => ?_, fun hne => ?_⟩
  · obtain ⟨ho, ⟨hc, hlt, hb⟩, hout⟩ := (hostOp_output_cases h).resolve_left hne
    exact ⟨ho, hc, hlt, hb, hout⟩
  · obtain ⟨heq, -⟩ | hoffer | ⟨ho, ⟨hc, hlt, hb⟩, hin⟩ := hostOp_input_cases h
    · exact absurd heq hne
    · exact .inl hoffer
    · exact .inr ⟨ho, hc, hlt, hb, hin⟩

/-- Settles O33, by induction on the sequence: each operation grows the output at its end and consumes the
oldest bytes. -/
theorem inputOutputOrder : Obligations.InputOutputOrder := by
  intro os
  induction os with
  | nil => intro s t h; cases h; exact ⟨⟨[], (List.append_nil _).symm⟩, [], List.append_nil _⟩
  | cons o os ih =>
    intro s t h
    obtain ⟨u, ho, hrest⟩ := hostRun_cons h
    obtain ⟨⟨emitted, hout⟩, consumed, hin⟩ := ih u t hrest
    obtain ⟨emitted', hout'⟩ := hostOp_output_grows ho
    obtain ⟨consumed', hin'⟩ := hostOp_input_order ho
    refine ⟨⟨emitted' ++ emitted, by rw [hout, hout', List.append_assoc]⟩, consumed' ++ consumed, ?_⟩
    rw [offered_cons, ← List.append_assoc, hin', List.append_assoc, hin, List.append_assoc]

end Sys2Proof.Machine
end

section
/-! PROOFS. Deleting the waiting steps gives the run of the blocking design (42_io.md section 2, decision D3). -/

namespace Sys2Proof.Machine

/-- The state of the blocking design: further bytes are available from the start, and nothing waits. -/
def supplied (later : List Byte) (s : State) : State :=
  { s with input := s.input ++ later, await := false }

section
variable {s t : State} (later : List Byte)

/-- A waiting step changes nothing but AWAIT, which the blocking design does not have. -/
theorem supplied_setAwait (v : Bool) : supplied later (s.setAwait v) = supplied later s := rfl

/-- An offered byte was available from the start. -/
theorem supplied_offerInput (b : Byte) : supplied later (offerInput b s) = supplied (b :: later) s := by
  simp [supplied, offerInput, State.setInput]

theorem supplied_nil : supplied [] s = { s with await := false } := by
  simp [supplied]

/-- A jump reads and writes neither the input nor AWAIT. -/
theorem jumpByScan_supplied {r : Scan} (h : jumpByScan s r = .next t) :
    jumpByScan (supplied later s) r = .next (supplied later t) := by
  obtain ⟨q, rfl, rfl⟩ | ⟨rfl, rfl⟩ := jumpByScan_cases h <;> rfl

/-- An instruction that does not wait has the same effect in the blocking design. -/
theorem exec_supplied {i : Instr} (h : exec i s = .next t) (hwait : ¬ Waits i s t) :
    exec i (supplied later s) = .next (supplied later t) := by
  cases i with
  | inc | dec | right | left | out | nop b => cases h; rfl
  | inp =>
    cases hin : s.input with
    | nil =>
      rw [exec_inp_nil s hin] at h
      cases h
      exact absurd ⟨rfl, hin, rfl⟩ hwait
    | cons b rest =>
      rw [exec_inp_cons s hin] at h
      cases h
      have hin' : (supplied later s).input = b :: (rest ++ later) := congrArg (· ++ later) hin
      exact exec_inp_cons _ hin'
  | jz =>
    by_cases hz : memRead s (currentAddr s) = 0
    · rw [exec_jz_zero s hz] at h
      exact (exec_jz_zero (supplied later s) hz).trans (jumpByScan_supplied later h)
    · rw [exec_jz_nonzero s hz] at h
      cases h
      exact exec_jz_nonzero (supplied later s) hz
  | jnz =>
    by_cases hz : memRead s (currentAddr s) = 0
    · rw [exec_jnz_zero s hz] at h
      cases h
      exact exec_jnz_zero (supplied later s) hz
    · rw [exec_jnz_nonzero s hz] at h
      exact (exec_jnz_nonzero (supplied later s) hz).trans (jumpByScan_supplied later h)

/-- A step is, in the blocking design, either deleted or a step. -/
theorem step_supplied (h : step s = .next t) :
    supplied later t = supplied later s ∨ step (supplied later s) = .next (supplied later t) := by
  obtain ⟨rfl, -⟩ | ⟨hc, hlt, b, hb, hexec⟩ := step_cases h
  · exact .inl rfl
  by_cases hwait : Waits (decode b) s t
  · obtain ⟨-, -, rfl⟩ := hwait
    exact .inl (supplied_setAwait later true)
  · have hd : step (supplied later s) = exec (decode b) (supplied later s) := step_eq_exec hc hlt hb
    exact .inr (hd.trans (exec_supplied later hexec hwait))

end

/-- `n` steps lead from one state to the other, and no state on the way waits. -/
def RunsWithoutWaiting (n : Nat) (s t : State) : Prop :=
  (∀ m ≤ n, ∃ u : State, Host.Core.run Sys2Proof.core m s = .next u ∧ u.await = false) ∧
  Host.Core.run Sys2Proof.core n s = .next t

theorem runsWithoutWaiting_zero {s : State} (h : s.await = false) : RunsWithoutWaiting 0 s s := by
  refine ⟨fun m hm => ?_, rfl⟩
  obtain rfl := Nat.le_zero.1 hm
  exact ⟨s, rfl, h⟩

theorem RunsWithoutWaiting.cons {n : Nat} {s u t : State} (hs : s.await = false) (hstep : step s = .next u)
    (h : RunsWithoutWaiting n u t) : RunsWithoutWaiting (n + 1) s t := by
  refine ⟨fun m hm => ?_, (core_run_succ n hstep).trans h.2⟩
  cases m with
  | zero => exact ⟨s, rfl, hs⟩
  | succ m =>
    rw [core_run_succ m hstep]
    exact h.1 m (Nat.le_of_succ_le_succ hm)

/-- The simulation, by induction on the sequence: a waiting step and an offer are deleted, every other step is
a step of the blocking design. -/
theorem hostRun_supplied {os : List HostOp} {s t : State} (hos : StepsAndOffers os)
    (h : hostRun os s = .next t) :
    ∃ n, RunsWithoutWaiting n (supplied (offered os) s) (supplied [] t) := by
  induction os generalizing s with
  | nil => cases h; exact ⟨0, runsWithoutWaiting_zero rfl⟩
  | cons o os ih =>
    obtain ⟨u, ho, hrest⟩ := hostRun_cons h
    obtain ⟨n, hn⟩ := ih (fun o' ho' => hos o' (List.mem_cons_of_mem _ ho')) hrest
    obtain rfl | ⟨b, rfl⟩ := hos o List.mem_cons_self
    · obtain heq | hstep := step_supplied (offered os) ho
      · exact ⟨n, heq ▸ hn⟩
      · exact ⟨n + 1, hn.cons rfl hstep⟩
    · cases ho
      exact ⟨n, supplied_offerInput (offered os) b ▸ hn⟩

/-! ### The obligations -/

/-- Settles O53 by the simulation `hostRun_supplied`. -/
theorem deletingWaitsGivesBlockingRun : Obligations.DeletingWaitsGivesBlockingRun := by
  intro os s t hos h
  obtain ⟨n, hn⟩ := hostRun_supplied hos h
  rw [supplied_nil] at hn
  exact ⟨n, hn⟩

end Sys2Proof.Machine
end

section
/-! PROOFS. The canonical form of the tape determines its data, and the inverse laws of the tape instructions
(10_state.md section 2, 41_tape_ops.md, arithmetic laws of the family). -/

namespace Sys2Proof.Machine

/-! ### A memory with rising addresses is the set of its entries -/

/-- In a memory with rising addresses a lookup answers the entry at the address. -/
theorem lookup_eq_some_iff {m : Memory} (h : m.Pairwise (fun c d => c.1 < d.1)) (a : Nat) (v : Byte) :
    Memory.lookup m a = some v ↔ (a, v) ∈ m := by
  induction m with
  | nil => simp
  | cons c m ih =>
    obtain ⟨hc, hm⟩ := List.pairwise_cons.1 h
    rw [lookup_cons, List.mem_cons]
    split
    case isTrue heq =>
      have hnot : (a, v) ∉ m := fun hmem => lt_irrefl _ (heq ▸ hc _ hmem)
      simp only [Option.some_inj, hnot, or_false, Prod.ext_iff, heq, true_and]
      exact eq_comm
    case isFalse hne =>
      have hhead : (a, v) ≠ c := fun heq => hne (congrArg Prod.fst heq.symm)
      rw [ih hm, or_iff_right hhead]

/-- Two memories with rising addresses and the same lookups are the same list. -/
theorem eq_of_lookup_eq {m m' : Memory} (h : m.Pairwise (fun c d => c.1 < d.1))
    (h' : m'.Pairwise (fun c d => c.1 < d.1)) (heq : ∀ a, Memory.lookup m a = Memory.lookup m' a) : m = m' := by
  have hnodup {l : Memory} (hl : l.Pairwise (fun c d => c.1 < d.1)) : l.Nodup :=
    hl.imp fun hlt heq => absurd hlt (by rw [heq]; exact lt_irrefl _)
  have hperm : m.Perm m' := by
    refine (List.perm_ext_iff_of_nodup (hnodup h) (hnodup h')).2 fun c => ?_
    rw [← lookup_eq_some_iff h, ← lookup_eq_some_iff h', heq]
  exact hperm.eq_of_pairwise (fun c d _ _ hcd hdc => absurd hcd (lt_asymm hdc)) h h'

/-! ### A canonical tape is the function it reads as -/

/-- A canonical tape lists a cell exactly when the cell does not hold its reset value. -/
theorem lookup_tape_eq_some_iff {s : State} (h : s.Canonical) (a : Nat) (v : Byte) :
    Memory.lookup s.tape a = some v ↔ a < 65536 ∧ memRead s (a : Int) = v ∧ v ≠ tapeInit a := by
  obtain ⟨⟨hrise, hentry⟩, -⟩ := h
  constructor
  · intro hl
    obtain ⟨hlt, hne⟩ := hentry _ ((lookup_eq_some_iff hrise a v).1 hl)
    refine ⟨hlt, ?_, fun heq => hne (congrArg some heq.symm)⟩
    rw [memRead, cellIndex_of_lt hlt, hl]
    rfl
  · rintro ⟨hlt, hread, hne⟩
    rw [memRead, cellIndex_of_lt hlt] at hread
    cases hl : Memory.lookup s.tape a with
    | none => exact absurd (hread.symm.trans (by rw [hl]; rfl)) hne
    | some w => rw [hl] at hread; exact congrArg some hread

/-- Two canonical tapes that read the same are the same data. -/
theorem tape_ext {s t : State} (hs : s.Canonical) (ht : t.Canonical)
    (h : ∀ a : Int, memRead s a = memRead t a) : s.tape = t.tape := by
  refine eq_of_lookup_eq hs.1.1 ht.1.1 fun a => Option.ext fun v => ?_
  rw [lookup_tape_eq_some_iff hs, lookup_tape_eq_some_iff ht, h]

/-! ### Two writes of one cell -/

theorem memWrite_canonical {s : State} (h : s.Canonical) (a : Int) (v : Byte) :
    (memWrite s a v).Canonical :=
  ⟨memWrite_wf s a v h.1, h.2⟩

/-- Writing back what a cell held undoes a write of a canonical tape. -/
theorem memWrite_memWrite_restore {s : State} (h : s.Canonical) (a : Int) (v : Byte) :
    memWrite (memWrite s a v) a (memRead s a) = s := by
  have htape : (memWrite (memWrite s a v) a (memRead s a)).tape = s.tape := by
    refine tape_ext (memWrite_canonical (memWrite_canonical h a v) a _) h fun b => ?_
    rw [memRead_memWrite, memRead_memWrite]
    split
    case isTrue hab => exact memRead_congr_cellIndex s hab
    case isFalse => rfl
  rw [memWrite_eq, htape]
  rfl

/-! ### Two instructions that undo each other -/

/-- `+` and `-` each add a byte to the current cell, then advance IP. -/
def addToCell (s : State) (d : Byte) : State :=
  advanceIp (memWrite s (currentAddr s) (memRead s (currentAddr s) + d))

/-- Adding a byte and then its negative restores a canonical state up to IP. -/
theorem addToCell_addToCell {s : State} (h : s.Canonical) {d e : Byte} (hde : d + e = 0) :
    addToCell (addToCell s d) e = { s with ip := s.ip + 1 + 1 } := by
  have hback : memRead (addToCell s d) (currentAddr s) + e = memRead s (currentAddr s) := by
    have hcell : memRead (addToCell s d) (currentAddr s) = memRead s (currentAddr s) + d :=
      memRead_memWrite_self s _ _
    rw [hcell, BitVec.add_assoc, hde]
    exact BitVec.add_zero _
  calc addToCell (addToCell s d) e
      = advanceIp (advanceIp (memWrite (memWrite s (currentAddr s) (memRead s (currentAddr s) + d))
          (currentAddr s) (memRead (addToCell s d) (currentAddr s) + e))) := rfl
    _ = advanceIp (advanceIp s) := by rw [hback, memWrite_memWrite_restore h]

/-- Two writes of AP and two advances restore the state up to IP when the second write restores AP. -/
theorem advance_setAp_setAp {s : State} {v w : Addr} (hw : w = s.ap) :
    advanceIp ((advanceIp (s.setAp v)).setAp w) = { s with ip := s.ip + 1 + 1 } := by
  rw [hw]
  rfl

/-! ### The obligations -/

/-- Settles O36: a canonical tape lists exactly the cells that do not hold their reset value. -/
theorem canonicalTapeIsUnique : Obligations.CanonicalTapeIsUnique := fun _ _ => tape_ext

/-- Settles O13: 1 + 255 = 0 modulo 256 for the cell, and AP + 1 - 1 = AP - 1 + 1 = AP. -/
theorem tapeInstructionInverses : Obligations.TapeInstructionInverses := by
  refine ⟨fun s h => ⟨⟨_, exec_inc s, ?_⟩, _, exec_dec s, ?_⟩, fun s => ⟨⟨_, exec_right s, ?_⟩, _, exec_left s, ?_⟩⟩
  · exact (exec_dec _).trans (congrArg _ (addToCell_addToCell h (d := 1) (e := 255) rfl))
  · exact (exec_inc _).trans (congrArg _ (addToCell_addToCell h (d := 255) (e := 1) rfl))
  · exact (exec_left _).trans (congrArg _ (advance_setAp_setAp (BitVec.add_sub_cancel s.ap 1)))
  · exact (exec_right _).trans (congrArg _ (advance_setAp_setAp (BitVec.sub_add_cancel s.ap 1)))

end Sys2Proof.Machine
end

section
/-! PROOFS. The ports of the host, RESET and the boot (20_memory.md sections 2 and 4, 70_reset_and_hazards.md
sections 1 and 2, 40_stepper.md section 2). -/

namespace Sys2Proof.Machine

/-! ### The read ports -/

/-- The low 16 bits of an integer in two's complement are its floor residue. -/
theorem toNat_ofInt_addr (a : Int) : ((BitVec.ofInt 16 a).toNat : Int) = a % 65536 := by
  rw [BitVec.toNat_ofInt]
  exact Int.toNat_of_nonneg (Int.emod_nonneg a (by decide))

theorem readPort_eq_readPort16 (a : Int) (s : State) :
    readPort a s = readPort16 (BitVec.ofInt 16 a) s := by
  rw [readPort, readPort16, toNat_ofInt_addr, memRead_emod]

/-- Two nominal addresses with one floor residue read the same cell. -/
theorem readPort_congr {a b : Int} (h : a % 65536 = b % 65536) (s : State) : readPort a s = readPort b s :=
  memRead_congr_cellIndex s ((cellIndex_eq_iff a b).2 h)

theorem length_readRange (lo hi : Int) (s : State) :
    (readRange lo hi s).length = (hi - lo + 1).toNat := by
  simp [readRange]

theorem getElem?_readRange {lo hi : Int} {k : Nat} (h : (k : Int) ≤ hi - lo) (s : State) :
    (readRange lo hi s)[k]? = some (readPort (lo + k) s) := by
  have hk : k < (hi - lo + 1).toNat := by omega
  simp [readRange, List.getElem?_map, List.getElem?_range hk]

/-! ### The boot -/

theorem load_of_loaded {s : State} (h : s.loaded = true) (bytes : List Byte) :
    load bytes s = .refused .loadWhileLoaded := by
  rw [load, if_pos h]

/-- The state after a LOAD of at most 65536 bytes holds them. -/
theorem holdsProgram_loaded (s : State) {bytes : List Byte} (h : bytes.length ≤ 65536) :
    HoldsProgram { s with prog := programCells 0 bytes, len := BitVec.ofNat 17 bytes.length, ip := 0,
                          loaded := true } bytes :=
  ⟨toNat_ofNat_index h, fun i _ => progRead_programCells s bytes i⟩

/-- A held program runs its first byte from IP = 0. -/
theorem step_of_holdsProgram_cons {s : State} {b : Byte} {rest : List Byte} (h : HoldsProgram s (b :: rest))
    (hc : s.cause = .none) (hip : s.ip = 0) : step s = exec (decode b) s := by
  obtain ⟨hlen, hread⟩ := h
  have hzero : s.ip.toNat = 0 := by rw [hip]; rfl
  refine step_eq_exec hc ?_ ?_
  · rw [hzero, hlen]
    exact Nat.succ_pos _
  · rw [hzero]
    exact hread 0 (Nat.succ_pos _)

theorem hostRun_pair {o o' : HostOp} {s u t : State} (h : hostOp o s = .next u) (h' : hostOp o' u = .next t) :
    hostRun [o, o'] s = .next t := by
  simp only [hostRun, h, h']

/-! ### The obligations -/

/-- Settles O37: the low 16 bits are the floor residue, on which alone a read depends. -/
theorem readPortTakesLowBits : Obligations.ReadPortTakesLowBits := fun s =>
  ⟨fun a => readPort_eq_readPort16 a s, readPort_congr (by decide) s, readPort_congr (by decide) s⟩

/-- Settles O38: the range is `hi - lo + 1` as a natural number, which is 0 when lo > hi. -/
theorem readRangeEntries : Obligations.ReadRangeEntries := by
  refine fun s lo hi => ⟨fun hle => ⟨?_, fun k hk => getElem?_readRange hk s⟩, fun hlt => ?_⟩
  · rw [length_readRange]
    omega
  · apply List.eq_nil_of_length_eq_zero
    rw [length_readRange]
    omega

/-- Settles O39: each answer by its definition, a read of a cell by its floor residue. -/
theorem portReadsChangeNothing : Obligations.PortReadsChangeNothing := by
  refine ⟨fun s => ⟨rfl, fun a => ?_, fun _ _ => rfl, rfl, rfl, rfl⟩, fun q s => hostOp_query s q⟩
  rw [memRead_emod]
  rfl

/-- Settles O42: RESET is total and keeps the host's two sequences. -/
theorem resetOperation : Obligations.ResetOperation := fun s => hostOp_reset s

/-- Settles O45: LOAD checks LOADED first. -/
theorem secondLoadRefused : Obligations.SecondLoadRefused := fun _ bytes h => load_of_loaded h bytes

/-- Settles O46: after RESET the LOAD takes its success path, and IP = 0 fetches the first byte. -/
theorem bootRunsFirstByte : Obligations.BootRunsFirstByte := by
  intro s b rest hn
  have hholds := holdsProgram_loaded (resetOp s) hn
  exact ⟨_, hostRun_pair (hostOp_reset s) (load_of_length_le rfl hn), rfl, hholds,
    step_of_holdsProgram_cons hholds rfl rfl⟩

/-- Settles O14: the fetch answers the byte at IP, and the decoder inverts the encoder. -/
theorem stepRunsDecodedInstruction : Obligations.StepRunsDecodedInstruction := by
  refine fun s hc hlt => ⟨fun b hb => step_eq_exec hc hlt hb, fun i hi hb => ?_⟩
  rw [step_eq_exec hc hlt hb, decode_encode hi]

end Sys2Proof.Machine
end

section
/-! PROOFS. The loop of ScanBackward, and the scans in registers of the widths of rule R108 (43_loop.md
section 2). -/

namespace Sys2Proof.Machine

variable {prog : Memory}

/-! ### One iteration -/

/-- Rule R105: one iteration of the backward loop, at a position that holds a byte. -/
theorem scanBackwardFrom_succ {p : Nat} {b : Byte} (d : Nat) (hb : Memory.lookup prog p = some b) :
    scanBackwardFrom prog (p + 1) d =
      if b = closeByte then scanBackwardFrom prog p (d + 1)
      else if b = openByte ∧ d = 0 then .found (BitVec.ofNat 17 (p + 1))
      else if b = openByte then scanBackwardFrom prog p (d - 1)
      else scanBackwardFrom prog p d := by
  rw [scanBackwardFrom, hb]
  by_cases ho : b = openByte <;> simp [ho]

/-! ### The registers do not wrap -/

theorem index_succ {p len : Index} (h : p.toNat < len.toNat) : (p + 1).toNat = p.toNat + 1 := by
  have := len.isLt
  bv_omega

theorem index_pred {p : Index} {n : Nat} (h : p.toNat = n + 1) : (p - 1).toNat = n := by
  bv_omega

theorem index_eq_ofNat {p : Index} {n : Nat} (h : p.toNat = n) : p = BitVec.ofNat 17 n := by
  rw [← h, BitVec.ofNat_toNat, BitVec.setWidth_eq]

theorem counter_up {d : BitVec 16} (h : d.toNat < 65535) : (d + 1).toNat = d.toNat + 1 := by
  bv_omega

theorem counter_down {d : BitVec 16} (h : d ≠ 0) : (d - 1).toNat = d.toNat - 1 := by
  bv_omega

theorem counter_eq_zero_iff (d : BitVec 16) : d = 0 ↔ d.toNat = 0 := by
  bv_omega

/-! ### The scans agree -/

/-- The forward scan in registers: the counter is at most the position, which stays below 65536. -/
theorem regScanForwardFrom_eq {len : Index} (hlen : len.toNat ≤ 65536) (left : Nat) {n : Nat} {p : Index}
    {d : BitVec 16} (hp : p.toNat + 1 + left = len.toNat) (hn : left ≤ n) (hd : d.toNat ≤ p.toNat) :
    regScanForwardFrom prog len n p d = scanForwardFrom prog left (p.toNat + 1) d.toNat := by
  have hnext : (p + 1).toNat = p.toNat + 1 := index_succ (len := len) (by omega)
  induction left generalizing n p d with
  | zero =>
    have hend : p + 1 = len := BitVec.eq_of_toNat_eq (by omega)
    cases n with
    | zero => rfl
    | succ n => rw [regScanForwardFrom, if_pos hend]; rfl
  | succ left ih =>
    obtain ⟨n, rfl⟩ := Nat.exists_eq_add_one_of_ne_zero (Nat.ne_zero_of_lt hn)
    have hin : p + 1 ≠ len := fun h => by rw [h] at hnext; omega
    have next {e : BitVec 16} (he : e.toNat ≤ p.toNat + 1) :
        regScanForwardFrom prog len n (p + 1) e = scanForwardFrom prog left (p.toNat + 1 + 1) e.toNat := by
      rw [ih (p := p + 1) (by omega) (by omega) (by omega) (index_succ (len := len) (by omega)), hnext]
    rw [regScanForwardFrom, if_neg hin, hnext]
    cases hb : Memory.lookup prog (p.toNat + 1) with
    | none => rw [scanForwardFrom, hb]
    | some b =>
      have hup : (d + 1).toNat = d.toNat + 1 := counter_up (by omega)
      have hfound : p + 1 + 1 = BitVec.ofNat 17 (p.toNat + 1 + 1) :=
        index_eq_ofNat ((index_succ (len := len) (by omega)).trans (by omega))
      rw [scanForwardFrom, hb]
      simp only [← counter_eq_zero_iff, hfound]
      split
      · rw [next (by omega), hup]
      · split
        · split
          · rfl
          · rename_i hz
            have hdown := counter_down hz
            rw [next (by omega), hdown]
        · exact next (by omega)

/-- The backward scan in registers: the counter and the position together stay below 65536. -/
theorem regScanBackwardFrom_eq (below : Nat) {n : Nat} {p : Index} {d : BitVec 16} (hp : p.toNat = below)
    (hn : below ≤ n) (hd : d.toNat + below ≤ 65535) :
    regScanBackwardFrom prog n p d = scanBackwardFrom prog below d.toNat := by
  induction below generalizing n p d with
  | zero =>
    have hend : p = 0 := BitVec.eq_of_toNat_eq hp
    cases n with
    | zero => rfl
    | succ n => rw [regScanBackwardFrom, if_pos hend]; rfl
  | succ below ih =>
    obtain ⟨n, rfl⟩ := Nat.exists_eq_add_one_of_ne_zero (Nat.ne_zero_of_lt hn)
    have hin : p ≠ 0 := fun h => by rw [h] at hp; cases hp
    have hpred : (p - 1).toNat = below := index_pred hp
    have next {e : BitVec 16} (he : e.toNat + below ≤ 65535) :
        regScanBackwardFrom prog n (p - 1) e = scanBackwardFrom prog below e.toNat :=
      ih hpred (by omega) he
    rw [regScanBackwardFrom, if_neg hin, hpred]
    cases hb : Memory.lookup prog below with
    | none => rw [scanBackwardFrom, hb]
    | some b =>
      have hup : (d + 1).toNat = d.toNat + 1 := counter_up (by omega)
      have hfound : p - 1 + 1 = BitVec.ofNat 17 (below + 1) := by
        rw [BitVec.sub_add_cancel]
        exact index_eq_ofNat hp
      rw [scanBackwardFrom, hb]
      simp only [← counter_eq_zero_iff, hfound]
      split
      · rw [next (by omega), hup]
      · split
        · split
          · rfl
          · rename_i hz
            have hdown := counter_down hz
            rw [next (by omega), hdown]
        · exact next (by omega)

/-! ### The obligations -/

/-- Settles O48: one iteration of the loop, with the two bytes of a bracket. -/
theorem backwardScanLoop : Obligations.BackwardScanLoop := fun _ =>
  ⟨rfl, fun _ d => ⟨rfl, fun _ hb => scanBackwardFrom_succ d hb⟩⟩

/-- Settles O49: a scan of a program of at most 65536 bytes reads at most 65535 positions, so neither register
wraps and 65536 iterations suffice. -/
theorem registerScannerAgrees : Obligations.RegisterScannerAgrees := by
  intro s hlen hlt
  refine ⟨regScanForwardFrom_eq hlen _ (by omega) (by omega) (Nat.zero_le _), ?_⟩
  have hzero : (0 : BitVec 16).toNat = 0 := rfl
  exact regScanBackwardFrom_eq _ rfl (by omega) (by omega)

end Sys2Proof.Machine
end
